-- ==== Sys2Proof/Word.lean ====
section
/-! DEFINITION. The block's word types (00_scope.md R9: bit 0 is the least significant bit, every value unsigned). -/

namespace Sys2Proof

/-- A 32-bit host bus word, command word or interface register (R6, R50, R70). -/
abbrev Word := BitVec 32

/-- A buffer byte, an ASCII character or a keystream byte (R6, R13). -/
abbrev Byte := BitVec 8

/-- A hexadecimal digit's value (R142, R143). -/
abbrev Nibble := BitVec 4

/-- A host byte address, 0x000 to 0xFFF (R50). -/
abbrev BusAddr := BitVec 12

end Sys2Proof
end

