-- ==== Sys2Proof/Syntax.lean ====
section
/-! DEFINITION. The twelve commands of 30_encoding.md R73, one constructor per row of spec/opcode_table.json. -/

namespace Sys2Proof

/-- A command with the operand fields of its word (R71, R72): `a` is A (bits 9:4), `b` is B (bits 15:10), `d` is D
(bits 23:16). -/
inductive Instr where
  /-- LCFG: seed length A, tap-vector length B (R101). -/
  | lcfg (a b : BitVec 6)
  /-- LRST (R102). -/
  | lrst
  /-- LNXT (R103). -/
  | lnxt
  /-- LSEQ: count A (R104). -/
  | lseq (a : BitVec 6)
  /-- ELOAD: length of the seed A (R121). -/
  | eload (a : BitVec 6)
  /-- ERST (R122). -/
  | erst
  /-- EKSR (R126). -/
  | eksr
  /-- EKSB (R127). -/
  | eksb
  /-- EBEG (R128). -/
  | ebeg
  /-- EXB: the byte D (R140). -/
  | exb (d : Byte)
  /-- EXN: the nibble D[3:0]; D[7:4] must be 0 (R141, R72). -/
  | exn (d : Byte)
  /-- ETRN (R146). -/
  | etrn
  deriving DecidableEq, Repr

end Sys2Proof
end

