-- ==== Sys2Proof/WellFormed.lean ====
section
/-! DEFINITION. Which commands have an encoding. Every operand field has the width of its place in the word, so one
check is left: EXN's D[7:4] must be 0 (30_encoding.md R72, R74). -/

namespace Sys2Proof

/-- The command has a word of R74. -/
def Instr.wf : Instr → Bool
  | .lcfg _ _ => true
  | .lrst => true
  | .lnxt => true
  | .lseq _ => true
  | .eload _ => true
  | .erst => true
  | .eksr => true
  | .eksb => true
  | .ebeg => true
  | .exb _ => true
  | .exn d => d.extractLsb' 4 4 == 0
  | .etrn => true

end Sys2Proof
end

