-- ==== Sys2Proof/Decode.lean ====
section
/-! DEFINITION. Decoding a command word, total on every word and rejecting by name (30_encoding.md R70 to R76), and the
encoder, from the patterns of R74. -/

namespace Sys2Proof

/-- Why a word matches no row of R74 (R75 names the two cases). Either way the block reports ILLEGAL. -/
inductive DecodeReject where
  /-- OP is 0x0, 0xD, 0xE or 0xF (R76). -/
  | reservedOpcode
  /-- OP is defined, but a bit that the row's mask requires to be 0 is 1 (R75). -/
  | unusedBitSet
  deriving DecidableEq, Repr

/-- OP, bits 3:0 (R71). -/
def fieldOp (w : Word) : BitVec 4 := w.extractLsb' 0 4

/-- A, bits 9:4 (R71). -/
def fieldA (w : Word) : BitVec 6 := w.extractLsb' 4 6

/-- B, bits 15:10 (R71). -/
def fieldB (w : Word) : BitVec 6 := w.extractLsb' 10 6

/-- D, bits 23:16 (R71). -/
def fieldD (w : Word) : Byte := w.extractLsb' 16 8

/-- One row of R74: the command `i` if `w` agrees with `pattern` under `mask`. -/
def rowOf (mask pattern w : Word) (i : Instr) : Except DecodeReject Instr :=
  if w &&& mask = pattern then .ok i else .error .unusedBitSet

/-- The command a word stands for: the row of R74 that its OP selects. -/
def decode (w : Word) : Except DecodeReject Instr :=
  match (fieldOp w).toNat with
  | 0x1 => rowOf 0xFFFF000F 0x00000001 w (.lcfg (fieldA w) (fieldB w))
  | 0x2 => rowOf 0xFFFFFFFF 0x00000002 w .lrst
  | 0x3 => rowOf 0xFFFFFFFF 0x00000003 w .lnxt
  | 0x4 => rowOf 0xFFFFFC0F 0x00000004 w (.lseq (fieldA w))
  | 0x5 => rowOf 0xFFFFFC0F 0x00000005 w (.eload (fieldA w))
  | 0x6 => rowOf 0xFFFFFFFF 0x00000006 w .erst
  | 0x7 => rowOf 0xFFFFFFFF 0x00000007 w .eksr
  | 0x8 => rowOf 0xFFFFFFFF 0x00000008 w .eksb
  | 0x9 => rowOf 0xFFFFFFFF 0x00000009 w .ebeg
  | 0xA => rowOf 0xFF00FFFF 0x0000000A w (.exb (fieldD w))
  | 0xB => rowOf 0xFFF0FFFF 0x0000000B w (.exn (fieldD w))
  | 0xC => rowOf 0xFFFFFFFF 0x0000000C w .etrn
  | _ => .error .reservedOpcode

/-- The word with the given fields, R = 0 (R71). -/
def assembleFields (op : BitVec 4) (a b : BitVec 6) (d : Byte) : Word :=
  op.setWidth 32 ||| (a.setWidth 32 <<< 4) ||| (b.setWidth 32 <<< 10) ||| (d.setWidth 32 <<< 16)

/-- The word of a well-formed command (R74); unused fields are 0. -/
def encode : Instr → Word
  | .lcfg a b => assembleFields 0x1 a b 0
  | .lrst => assembleFields 0x2 0 0 0
  | .lnxt => assembleFields 0x3 0 0 0
  | .lseq a => assembleFields 0x4 a 0 0
  | .eload a => assembleFields 0x5 a 0 0
  | .erst => assembleFields 0x6 0 0 0
  | .eksr => assembleFields 0x7 0 0 0
  | .eksb => assembleFields 0x8 0 0 0
  | .ebeg => assembleFields 0x9 0 0 0
  | .exb d => assembleFields 0xA 0 0 d
  | .exn d => assembleFields 0xB 0 0 d
  | .etrn => assembleFields 0xC 0 0 0

/-- The low `nbits` bits of `w` as a command word; the bits above are 0. -/
def tableWord (nbits w : Nat) : Word := BitVec.ofNat 32 (w % 2 ^ nbits)

/-- The instruction the decoder reads from an opcode-table word (bit 0 is the word's least significant bit). A command
is one 32-bit bus datum, so no byte order enters (log entry 7). -/
def decodeTableWord (nbits w : Nat) : Option Instr :=
  match decode (tableWord nbits w) with
  | .ok i => some i
  | .error _ => none

end Sys2Proof
end

