-- ==== Sys2Proof/Config.lean ====
section
/-! DEFINITION. What an implementation fixes: the three open parameters (00_scope.md R8), and the one free value
of the block, the contents of buffer bytes that nothing has written (R40, I6). -/

namespace Sys2Proof

/-- TAP_INDEXING (R8, R23): which state bits the combiner's tap positions select. -/
inductive TapIndexing where
  | reversed
  | literal
  deriving DecidableEq, Repr

/-- CARRY_RULE (R8, R124): when the combiner's carry is set. -/
inductive CarryRule where
  | rawSum
  | never
  deriving DecidableEq, Repr

/-- The open parameters of R8. DESIGN CHOICE (log entry 1): they stand in the state, and no step changes them, so a
statement about every state holds for every choice of them. -/
structure Params where
  tapIndexing : TapIndexing
  carryRule : CarryRule
  acceptUppercase : Bool
  deriving DecidableEq, Repr

/-- The reference values of R8. -/
def Params.reference : Params :=
  { tapIndexing := .reversed, carryRule := .rawSum, acceptUppercase := false }

/-- FREE VALUE (log entry 2): what the buffer byte at a bus address holds after the `n`th block reset until something
writes it. R40: "a model must treat the value as an arbitrary draw and must not assume zero". -/
opaque Config.unwrittenByte (n : Nat) (addr : Nat) : BitVec 8

end Sys2Proof
end

