-- ==== Sys2Proof/Machine/State.lean ====
section
/-! DEFINITION. The state of the block (10_state.md), the host's accesses, the reasons a step can stop, and the state
after a block reset (R40, R181). -/

namespace Sys2Proof.Machine

/-- The codes of STATUS.ERR (R161). Codes 6 to 15 are never produced, so they are left out (I12). -/
inductive ErrCode where
  | none
  | config
  | format
  | illegal
  | notReady
  | range
  deriving DecidableEq, Repr

/-- One event of the host's sequence (R79): a bus read, a bus write, or a block reset. The width is in bytes, so that
an access of a width the bus refuses can be written down (R52). -/
inductive HostAccess where
  /-- MemRead(addr, bytes) (R11). -/
  | read (addr : BusAddr) (bytes : Nat)
  /-- MemWrite(addr, bytes, v) (R11). -/
  | write (addr : BusAddr) (bytes : Nat) (v : Word)
  /-- RST: a block reset (R180). -/
  | reset
  deriving DecidableEq, Repr

/-- What an aligned address names (R51). -/
inductive Target where
  | cmd
  | status
  | result
  | msglen
  | lseed
  | ltaps
  | eseedLo
  | eseedHi
  | msgIn
  | msgOut
  | reserved
  deriving DecidableEq, Repr

/-- The generic LFSR unit (R21). -/
structure LfsrUnit where
  /-- L_N -/
  n : BitVec 6
  /-- L_STATE -/
  state : Word
  /-- L_TAPS -/
  taps : Word
  /-- L_INIT -/
  init : Word
  /-- L_VALID -/
  valid : Bool
  deriving DecidableEq, Repr

/-- The combiner (R24, R25). -/
structure Combiner where
  /-- E_S17 -/
  s17 : BitVec 17
  /-- E_I17 -/
  i17 : BitVec 17
  /-- E_S25 -/
  s25 : BitVec 25
  /-- E_I25 -/
  i25 : BitVec 25
  /-- E_CARRY -/
  carry : Bool
  /-- E_VALID -/
  valid : Bool
  deriving DecidableEq, Repr

/-- The message buffers by bus address: a listed cell holds a byte that was written since the last block reset, an
unlisted address holds none (log entry 2). -/
abbrev Memory := List Host.Cell

/-- Everything the block holds, and beside it the model's own fields (`params`, `resets`, `pending`, `reads`). -/
structure State where
  /-- The open parameters of R8, never changed (log entry 1). -/
  params : Params
  /-- The generic LFSR unit (R21). -/
  gen : LfsrUnit
  /-- The combiner (R24). -/
  eng : Combiner
  /-- STATUS.ERR (R28). -/
  err : ErrCode
  /-- STATUS.ERRSEEN (R28). -/
  errSeen : Bool
  /-- RESULT (R29). -/
  result : Word
  /-- MSGLEN[15:0] (R30). -/
  msglen : BitVec 16
  /-- LSEED (R31). -/
  lseed : Word
  /-- LTAPS (R32). -/
  ltaps : Word
  /-- ESEED_LO (R33). -/
  eseedLo : Word
  /-- ESEED_HI[7:0] (R34). -/
  eseedHi : BitVec 8
  /-- MSGIN at 0x100 to 0x1FF and MSGOUT at 0x200 to 0x2FF (R56, R57). -/
  buf : Memory
  /-- The number of block resets so far: the index of the free bytes (log entry 3). -/
  resets : Nat
  /-- The host's accesses not yet issued, the next one first (R79; log entry 4). -/
  pending : List HostAccess
  /-- What the host's reads returned, newest first (log entry 5). -/
  reads : List Word
  deriving DecidableEq, Repr

/-- Why the machine stops. -/
inductive Fault where
  /-- A bus error (R52, R53, R166), raised by the bus cycle of `x`: a width other than 4 bytes, an address that is no
  multiple of 4, or a reserved address. R166: "A model treats a host program that causes a bus error as faulted at that
  access, with the fault never cleared". Safe: the spec names it. -/
  | busError (x : HostAccess)
  deriving DecidableEq, Repr

/-- Why the model gives no meaning. -/
inductive Refusal where
  /-- An instruction with no meaning in the model: raised by a refused arm of `exec` only, and no arm is refused. Safe. -/
  | notModelled (mnemonic : String)
  deriving DecidableEq, Repr

/-- What one bus cycle asks of the block. -/
inductive BusCycle where
  /-- The access is over, and this is the state after it. -/
  | done (t : State)
  /-- The access is a write of a command word to CMD; the state is that before the command (R81). -/
  | command (w : Word) (t : State)
  /-- The access is refused with a bus error (R52, R53). -/
  | error (x : HostAccess)
  deriving DecidableEq, Repr

/-- R40: the unconfigured generic unit. -/
def LfsrUnit.unconfigured : LfsrUnit :=
  { n := 0, state := 0, taps := 0, init := 0, valid := false }

/-- R40: the unconfigured combiner. -/
def Combiner.unconfigured : Combiner :=
  { s17 := 0, i17 := 0, s25 := 0, i25 := 0, carry := false, valid := false }

/-- R40: a block with parameters `p` after a block reset, nothing asked of it yet. -/
def State.resetWith (p : Params) : State :=
  { params := p
    gen := .unconfigured
    eng := .unconfigured
    err := .none
    errSeen := false
    result := 0
    msglen := 0
    lseed := 0
    ltaps := 0
    eseedLo := 0
    eseedHi := 0
    buf := []
    resets := 0
    pending := []
    reads := [] }

/-- The block after reset, with the reference parameters of R8. -/
def State.reset : State := State.resetWith Params.reference

end Sys2Proof.Machine
end

