-- ==== Sys2Proof/Machine/Operands.lean ====
section
/-! DEFINITION. Operands: the fixed limits (R6), the masked generic seed and taps (R101), the combiner's tap masks and seed split (R23, R33,
R120), the nibble of EXN (R141), and hex characters (R142 to R144). -/

namespace Sys2Proof.Machine

/-- N_MAX (R6): the largest length of the generic register. -/
def nMax : Nat := 32

/-- The largest count of LSEQ (R6, R104). -/
def lseqMax : Nat := 32

/-- MSG_MAX (R6): the size of each message buffer in bytes. -/
def msgMax : Nat := 256

/-- The only seed length ELOAD accepts (R6, R121). -/
def seedBits : Nat := 40

/-- The length of the marker in characters (R14). -/
def markerLen : Nat := 2

/-- `v & (2^n - 1)`: bits n-1..0 of `v`, the rest ignored (R101, D30). -/
def lowBits (n : Nat) (v : Word) : Word := v &&& BitVec.ofNat 32 (2 ^ n - 1)

/-- T17 (R23). -/
def t17 : TapIndexing → BitVec 17
  | .reversed => 0x04001
  | .literal => 0x10004

/-- T25 (R23). -/
def t25 : TapIndexing → BitVec 25
  | .reversed => 0x0001019
  | .literal => 0x1301000

/-- The 40-bit seed: ESEED_HI[7:0] above ESEED_LO (R33, R34, R121). -/
def seed40 (s : State) : BitVec 40 := s.eseedHi ++ s.eseedLo

/-- `init17(seed)` (R120): the leading 1 above seed[39:24]. -/
def init17 (seed : BitVec 40) : BitVec 17 := 0x10000 ||| (seed.extractLsb' 24 16).setWidth 17

/-- `init25(seed)` (R120): the leading 1 above seed[23:0]. -/
def init25 (seed : BitVec 40) : BitVec 25 := 0x1000000 ||| (seed.extractLsb' 0 24).setWidth 25

/-- EXN's plaintext nibble q = D[3:0] (R72, R141). -/
def exnNibble (d : Byte) : Nibble := d.extractLsb' 0 4

/-- Bits 7:4 of a byte: the half of a keystream byte that the tail uses (R141), the high digit of an output (R146). -/
def highNibble (b : Byte) : Nibble := b.extractLsb' 4 4

/-- Bits 3:0 of a byte (R146). -/
def lowNibble (b : Byte) : Nibble := b.extractLsb' 0 4

/-- `hexchar(v)` (R142): the lowercase ASCII digit. -/
def hexChar (v : Nibble) : Byte :=
  if v.toNat ≤ 9 then BitVec.ofNat 8 (0x30 + v.toNat) else BitVec.ofNat 8 (0x61 + (v.toNat - 10))

/-- `hexval(c)` (R143) where `is_hex(c)` (R144), and no value elsewhere: R143 applies it only to accepted characters. -/
def hexVal (p : Params) (c : Byte) : Option Nibble :=
  if 0x30 ≤ c.toNat ∧ c.toNat ≤ 0x39 then some (BitVec.ofNat 4 (c.toNat - 0x30))
  else if 0x61 ≤ c.toNat ∧ c.toNat ≤ 0x66 then some (BitVec.ofNat 4 (c.toNat - 0x61 + 10))
  else if p.acceptUppercase = true ∧ 0x41 ≤ c.toNat ∧ c.toNat ≤ 0x46 then
    some (BitVec.ofNat 4 (c.toNat - 0x41 + 10))
  else none

/-- `is_hex(c)` (R144). -/
def isHex (p : Params) (c : Byte) : Bool := (hexVal p c).isSome

/-- The values of a string of hex digits, if every character is one (R145). -/
def hexVals (p : Params) : List Byte → Option (List Nibble)
  | [] => some []
  | c :: cs =>
    match hexVal p c, hexVals p cs with
    | some v, some vs => some (v :: vs)
    | _, _ => none

end Sys2Proof.Machine
end

