-- ==== Sys2Proof/Machine/Ops.lean ====
section
/-! DEFINITION. The shared operations: how a command ends (60_exceptions.md R163, R164), the configured check (R162,
R165), and the message buffers (20_memory.md R56, R57). -/

namespace Sys2Proof.Machine

/-- The answer of a command. -/
abbrev Answer := Host.Outcome State Fault Refusal

/-- `raise Error(code)` (R11, R163): STATUS.ERR takes the code, STATUS.ERRSEEN is set, nothing else changes. This is
the block's one form of exception entry: no control transfer happens and no state is saved (R160, R168), and there is
no return (R169). -/
def raiseError (code : ErrCode) (s : State) : Answer :=
  .next { s with err := code, errSeen := true }

/-- A command's end without an error, in the state that its rule's changes give: STATUS.ERR becomes 0, ERRSEEN stays
(R164). -/
def succeed (s : State) : Answer := .next { s with err := .none }

/-- A command of a unit whose VALID bit is `valid`: NOTREADY unless it is set (R162, R165). -/
def whenReady (valid : Bool) (s : State) (body : Answer) : Answer :=
  if valid then body else raiseError .notReady s

/-- STATUS as a word (R28). -/
def ErrCode.code : ErrCode → BitVec 4
  | .none => 0
  | .config => 1
  | .format => 2
  | .illegal => 3
  | .notReady => 4
  | .range => 5

/-- The value of STATUS: ERR in bits 3:0, ERRSEEN, LVALID and EVALID in bits 4, 5 and 6, the rest 0 (R28). -/
def statusWord (s : State) : Word :=
  s.err.code.setWidth 32 ||| ((BitVec.ofBool s.errSeen).setWidth 32 <<< 4)
    ||| ((BitVec.ofBool s.gen.valid).setWidth 32 <<< 5) ||| ((BitVec.ofBool s.eng.valid).setWidth 32 <<< 6)

/-- The bus address of MSGIN[k] (R51, R56). -/
def msgInAddr (k : Nat) : Nat := 0x100 + k

/-- The bus address of MSGOUT[k] (R51, R56). -/
def msgOutAddr (k : Nat) : Nat := 0x200 + k

/-- The byte a memory holds at an address, if something wrote it. -/
def memLookup : Memory → Nat → Option Byte
  | [], _ => none
  | (k, b) :: m, a => if a = k then some b else memLookup m a

/-- The memory with `b` at address `a`, in the canonical form. -/
def memStore : Memory → Nat → Byte → Memory
  | [], a, b => [(a, b)]
  | (k, c) :: m, a, b =>
    if a < k then (a, b) :: (k, c) :: m
    else if a = k then (a, b) :: m
    else (k, c) :: memStore m a b

/-- The cells' addresses rise strictly from `lo` on and stay below 0x300. -/
def Memory.risesFrom : Nat → Memory → Bool
  | _, [] => true
  | lo, (k, _) :: m => decide (lo ≤ k) && decide (k < 0x300) && Memory.risesFrom (k + 1) m

/-- The canonical form: strictly rising addresses, all of them buffer addresses. An unlisted address holds no byte, so
no cell can equal what an unlisted address holds (log entry 2). -/
def Memory.wf (m : Memory) : Bool := Memory.risesFrom 0x100 m

/-- The byte of a buffer: what was written last, or else the free value of this block reset (R40, R60, I6). -/
def State.readByte (s : State) (a : Nat) : Byte :=
  match memLookup s.buf a with
  | some b => b
  | none => Config.unwrittenByte s.resets a

/-- One buffer byte written. -/
def State.writeByte (s : State) (a : Nat) (b : Byte) : State := { s with buf := memStore s.buf a b }

/-- Buffer bytes written at `a`, `a + 1`, … in ascending order (R12). -/
def State.writeBytes (s : State) (a : Nat) : List Byte → State
  | [] => s
  | b :: bs => (s.writeByte a b).writeBytes (a + 1) bs

/-- The `n` buffer bytes from address `a` on. -/
def State.readBytes (s : State) (a : Nat) : Nat → List Byte
  | 0 => []
  | n + 1 => s.readByte a :: s.readBytes (a + 1) n

/-- MSGIN[k] (R57). -/
def State.msgIn (s : State) (k : Nat) : Byte := s.readByte (msgInAddr k)

/-- MSGOUT[k] (R57). -/
def State.msgOut (s : State) (k : Nat) : Byte := s.readByte (msgOutAddr k)

/-- The message's characters after the marker, MSGIN[2..MSGLEN-1] (R145). -/
def State.msgBody (s : State) : List Byte :=
  s.readBytes (msgInAddr markerLen) (s.msglen.toNat - markerLen)

/-- The word of a buffer at a bus address, in little-endian lanes (R56). -/
def State.readWord (s : State) (a : Nat) : Word :=
  s.readByte (a + 3) ++ s.readByte (a + 2) ++ s.readByte (a + 1) ++ s.readByte a

/-- A buffer word written, in little-endian lanes (R56). -/
def State.writeWord (s : State) (a : Nat) (v : Word) : State :=
  s.writeBytes a [v.extractLsb' 0 8, v.extractLsb' 8 8, v.extractLsb' 16 8, v.extractLsb' 24 8]

end Sys2Proof.Machine
end

