-- ==== Sys2Proof/Machine/Bus.lean ====
section
/-! DEFINITION. The host bus: the address map (20_memory.md R51), the effects of an access (R52 to R57), the block reset
(70_reset_and_hazards.md R180, R181), and the bus cycle that a step runs. -/

namespace Sys2Proof.Machine

/-- The address map of R51, for an aligned address. -/
def busTarget (a : BusAddr) : Target :=
  if a.toNat < 0x020 then
    match a.toNat / 4 with
    | 0 => .cmd
    | 1 => .status
    | 2 => .result
    | 3 => .msglen
    | 4 => .lseed
    | 5 => .ltaps
    | 6 => .eseedLo
    | _ => .eseedHi
  else if a.toNat < 0x100 then .reserved
  else if a.toNat < 0x200 then .msgIn
  else if a.toNat < 0x300 then .msgOut
  else .reserved

/-- The bus accepts the access: 4 bytes wide, at a multiple of 4 (R52), not at a reserved address (R53). -/
def busAccepts (a : BusAddr) (bytes : Nat) : Bool :=
  decide (bytes = 4) && decide (a.toNat % 4 = 0) && decide (busTarget a ≠ .reserved)

/-- What a read of an aligned address returns (R27 to R34, R54, R56); a reserved address returns no data (R53). -/
def readTarget (s : State) (a : BusAddr) : Option Word :=
  match busTarget a with
  | .cmd => some 0
  | .status => some (statusWord s)
  | .result => some s.result
  | .msglen => some (s.msglen.setWidth 32)
  | .lseed => some s.lseed
  | .ltaps => some s.ltaps
  | .eseedLo => some s.eseedLo
  | .eseedHi => some (s.eseedHi.setWidth 32)
  | .msgIn => some (s.readWord a.toNat)
  | .msgOut => some (s.readWord a.toNat)
  | .reserved => none

/-- A host read: the data, or none for a bus error. -/
def busRead (s : State) (a : BusAddr) (bytes : Nat) : Option Word :=
  if busAccepts a bytes then readTarget s a else none

/-- A write of `v` to an aligned address: a command for CMD (R27), the writable bits of a read-write register (R30 to
R34), four bytes of MSGIN (R56), ignored for STATUS, RESULT and MSGOUT (R54). -/
def writeTarget (x : HostAccess) (s : State) (a : BusAddr) (v : Word) : BusCycle :=
  match busTarget a with
  | .cmd => .command v s
  | .status => .done s
  | .result => .done s
  | .msglen => .done { s with msglen := v.extractLsb' 0 16 }
  | .lseed => .done { s with lseed := v }
  | .ltaps => .done { s with ltaps := v }
  | .eseedLo => .done { s with eseedLo := v }
  | .eseedHi => .done { s with eseedHi := v.extractLsb' 0 8 }
  | .msgIn => .done (s.writeWord a.toNat v)
  | .msgOut => .done s
  | .reserved => .error x

/-- A block reset (R180, R181): every piece of the block's state at its value of R40, the unwritten buffer bytes drawn
anew. The host and its sequence of accesses are not the block's, and stay (log entry 11). -/
def blockReset (s : State) : State :=
  { State.resetWith s.params with resets := s.resets + 1, pending := s.pending, reads := s.reads }

/-- The effect of one access on a state from whose sequence it has been taken. -/
def busAccess (s : State) : HostAccess → BusCycle
  | .reset => .done (blockReset s)
  | .read a bytes =>
    match busRead s a bytes with
    | some v => .done { s with reads := v :: s.reads }
    | none => .error (.read a bytes)
  | .write a bytes v =>
    if busAccepts a bytes then writeTarget (.write a bytes v) s a v else .error (.write a bytes v)

/-- The host's next access, taken from its sequence and performed; with none outstanding the block is idle and keeps
all state (R60, R175). -/
def nextCycle (s : State) : BusCycle :=
  match s.pending with
  | [] => .done s
  | x :: rest => busAccess { s with pending := rest } x

end Sys2Proof.Machine
end

