-- ==== Sys2Proof/Machine/Flags.lean ====
section
/-! DEFINITION. The flag computations: the feedback parity (R11, R100), and the carry and the reduction of a keystream
byte (41_combiner.md R124, R125). -/

namespace Sys2Proof.Machine

/-- The XOR of bits 0 to `n - 1` of `v`. -/
def parityBelow {w : Nat} (v : BitVec w) : Nat → Bool
  | 0 => false
  | n + 1 => v.getLsbD n ^^ parityBelow v n

/-- `parity(v)` (R11): "the XOR of all bits of v". -/
def parity {w : Nat} (v : BitVec w) : Bool := parityBelow v w

/-- `carry_next(raw)` (R124). The incoming carry has no part in it. -/
def carryNext (rule : CarryRule) (raw : Nat) : Bool :=
  match rule with
  | .rawSum => decide (255 < raw)
  | .never => false

/-- `ks = (raw + carry) mod 256` (R125). -/
def reduceKs (raw : Nat) (carry : Bool) : Byte := BitVec.ofNat 8 (raw + carry.toNat)

end Sys2Proof.Machine
end

