-- ==== Sys2Proof/Machine/Lfsr.lean ====
section
/-! DEFINITION. The LFSR step (40_lfsr.md R100), the drawing of bits that LSEQ and the keystream share (R104, R123), and
the commands of the generic LFSR unit: LCFG, LRST, LNXT, LSEQ. -/

namespace Sys2Proof.Machine

/-- `lfsr_step(S, T, N)` (R100): the state after one step, and the output bit. -/
def lfsrStep {w : Nat} (S T : BitVec w) (N : Nat) : BitVec w × Bool :=
  ((S >>> 1) ||| ((BitVec.ofBool (parity (S &&& T))).setWidth w <<< (N - 1)), S.getLsbD 0)

/-- `k` steps: the state after them, and the `k` output bits packed with the first in bit 0 (R58, R104). -/
def lfsrDraw {w : Nat} (m : Nat) (S T : BitVec w) (N : Nat) : Nat → BitVec w × BitVec m
  | 0 => (S, 0)
  | k + 1 =>
    match lfsrDraw m S T N k with
    | (S₁, r) =>
      match lfsrStep S₁ T N with
      | (S₂, b) => (S₂, r ||| ((BitVec.ofBool b).setWidth m <<< k))

/-- LCFG (R101): CONFIG unless both lengths are equal and in 1..32; else a fresh construction. -/
def execLcfg (a b : BitVec 6) (s : State) : Answer :=
  if a ≠ b then raiseError .config s
  else if a.toNat = 0 ∨ nMax < a.toNat then raiseError .config s
  else
    let seed := lowBits a.toNat s.lseed
    let taps := lowBits a.toNat s.ltaps
    succeed { s with gen := { n := a, state := seed, taps := taps, init := seed, valid := true } }

/-- LRST (R102). -/
def execLrst (s : State) : Answer :=
  whenReady s.gen.valid s (succeed { s with gen := { s.gen with state := s.gen.init } })

/-- LNXT (R103). -/
def execLnxt (s : State) : Answer :=
  whenReady s.gen.valid s
    (match lfsrStep s.gen.state s.gen.taps s.gen.n.toNat with
     | (S, b) => succeed { s with gen := { s.gen with state := S }, result := (BitVec.ofBool b).setWidth 32 })

/-- LSEQ (R104): NOTREADY before RANGE. -/
def execLseq (k : BitVec 6) (s : State) : Answer :=
  whenReady s.gen.valid s
    (if lseqMax < k.toNat then raiseError .range s
     else
      match lfsrDraw 32 s.gen.state s.gen.taps s.gen.n.toNat k.toNat with
      | (S, r) => succeed { s with gen := { s.gen with state := S }, result := r })

end Sys2Proof.Machine
end

