-- ==== Sys2Proof/Machine/Keystream.lean ====
section
/-! DEFINITION. The combiner: construction from the 40-bit seed, the keystream helpers (41_combiner.md R120 to R125), and
the commands ELOAD, ERST, EKSR, EKSB, EBEG. -/

namespace Sys2Proof.Machine

/-- `ks_raw()` (R123): 8 bits from L17, 8 bits from L25, and their sum. E_CARRY is neither read nor written. -/
def ksRaw (p : Params) (e : Combiner) : Combiner × Nat :=
  match lfsrDraw 8 e.s17 (t17 p.tapIndexing) 17 8, lfsrDraw 8 e.s25 (t25 p.tapIndexing) 25 8 with
  | (s17, x), (s25, y) => ({ e with s17 := s17, s25 := s25 }, x.toNat + y.toNat)

/-- `ks_byte()` (R125): a reduced keystream byte, the carry threaded. -/
def ksByte (p : Params) (e : Combiner) : Combiner × Byte :=
  match ksRaw p e with
  | (e₁, raw) => ({ e₁ with carry := carryNext p.carryRule raw }, reduceKs raw e.carry)

/-- The combiner built from a 40-bit seed (R120, R121). -/
def Combiner.ofSeed (seed : BitVec 40) : Combiner :=
  { s17 := init17 seed, i17 := init17 seed, s25 := init25 seed, i25 := init25 seed, carry := false, valid := true }

/-- ELOAD (R121): CONFIG unless A is 40. -/
def execEload (n : BitVec 6) (s : State) : Answer :=
  if n.toNat ≠ seedBits then raiseError .config s
  else succeed { s with eng := Combiner.ofSeed (seed40 s) }

/-- ERST (R122). -/
def execErst (s : State) : Answer :=
  whenReady s.eng.valid s
    (succeed { s with eng := { s.eng with s17 := s.eng.i17, s25 := s.eng.i25, carry := false } })

/-- EKSR (R126). -/
def execEksr (s : State) : Answer :=
  whenReady s.eng.valid s
    (match ksRaw s.params s.eng with
     | (e, raw) => succeed { s with eng := e, result := BitVec.ofNat 32 raw })

/-- EKSB (R127). -/
def execEksb (s : State) : Answer :=
  whenReady s.eng.valid s
    (match ksByte s.params s.eng with
     | (e, ks) => succeed { s with eng := e, result := ks.setWidth 32 })

/-- EBEG (R128). -/
def execEbeg (s : State) : Answer :=
  whenReady s.eng.valid s (succeed { s with eng := { s.eng with carry := false } })

end Sys2Proof.Machine
end

