-- ==== Sys2Proof/Machine/Cipher.lean ====
section
/-! DEFINITION. The cipher unit (42_cipher.md): EXB, EXN and ETRN. -/

namespace Sys2Proof.Machine

/-- EXB (R140). -/
def execExb (p : Byte) (s : State) : Answer :=
  whenReady s.eng.valid s
    (match ksByte s.params s.eng with
     | (e, ks) => succeed { s with eng := e, result := (p ^^^ ks).setWidth 32 })

/-- EXN (R141): the nibble D[3:0] against ks[7:4]; a whole keystream byte is drawn. -/
def execExn (d : Byte) (s : State) : Answer :=
  whenReady s.eng.valid s
    (match ksByte s.params s.eng with
     | (e, ks) => succeed { s with eng := e, result := (exnNibble d ^^^ highNibble ks).setWidth 32 })

/-- The loop of ETRN over the digits after the marker (R146): a pair is a byte, first digit high; an odd last digit is
a tail nibble. -/
def transformNibbles (p : Params) : Combiner → List Nibble → Combiner × List Nibble
  | e, [] => (e, [])
  | e, [q] =>
    match ksByte p e with
    | (e₁, ks) => (e₁, [q ^^^ highNibble ks])
  | e, h :: l :: rest =>
    match ksByte p e with
    | (e₁, ks) =>
      let o := (h ++ l : Byte) ^^^ ks
      match transformNibbles p e₁ rest with
      | (e₂, out) => (e₂, highNibble o :: lowNibble o :: out)

/-- ETRN (R145, R146): the checks of R145 in its order, then the whole message. Every character is read before MSGOUT
is written, which no access can tell from reading as it goes (log entry 8). -/
def execEtrn (s : State) : Answer :=
  whenReady s.eng.valid s
    (if msgMax < s.msglen.toNat then raiseError .range s
     else if s.msglen.toNat < markerLen then raiseError .format s
     else
      match hexVals s.params s.msgBody with
      | none => raiseError .format s
      | some digits =>
        match transformNibbles s.params { s.eng with carry := false } digits with
        | (e, out) =>
          let t := s.writeBytes (msgOutAddr 0) (s.msgIn 0 :: s.msgIn 1 :: out.map hexChar)
          succeed { t with eng := e, result := s.msglen.setWidth 32 })

end Sys2Proof.Machine
end

