-- ==== Sys2Proof/Machine/Dispatch.lean ====
section
/-! DEFINITION. Which meaning each command has: one arm per constructor of Instr. -/

namespace Sys2Proof.Machine

open Sys2Proof

/-- The meaning of a command (R73). -/
def exec (i : Instr) (s : State) : Host.Outcome State Fault Refusal :=
  match i with
  | .lcfg a b => Sys2Proof.Machine.execLcfg a b s
  | .lrst => Sys2Proof.Machine.execLrst s
  | .lnxt => Sys2Proof.Machine.execLnxt s
  | .lseq a => Sys2Proof.Machine.execLseq a s
  | .eload a => Sys2Proof.Machine.execEload a s
  | .erst => Sys2Proof.Machine.execErst s
  | .eksr => Sys2Proof.Machine.execEksr s
  | .eksb => Sys2Proof.Machine.execEksb s
  | .ebeg => Sys2Proof.Machine.execEbeg s
  | .exb d => Sys2Proof.Machine.execExb d s
  | .exn d => Sys2Proof.Machine.execExn d s
  | .etrn => Sys2Proof.Machine.execEtrn s

end Sys2Proof.Machine
end

