-- ==== Sys2Proof/Machine/Step.lean ====
section
/-! DEFINITION. One step: one access of the host's sequence (30_encoding.md R79), a CMD write executing its command
whole (R81). -/

namespace Sys2Proof.Machine

/-- One step. A word that matches no row of R74 ends with ILLEGAL (R75). -/
def step (s : State) : Host.Outcome State Fault Refusal :=
  match nextCycle s with
  | .done t => .next t
  | .error x => .fault (.busError x)
  | .command w t =>
    match decode w with
    | .ok i => exec i t
    | .error _ => raiseError .illegal t

/-- The state whose next access is the write of this word to CMD; what the host meant to do comes after it (log
entry 4). -/
def State.withFetchWord (s : State) (nbits w : Nat) : State :=
  { s with pending := .write 0x000 4 (tableWord nbits w) :: s.pending }

end Sys2Proof.Machine
end

