-- ==== Sys2Proof/Safety.lean ====
section
/-! DEFINITION. What counts as a safe run, the invariant of the block's state (10_state.md R22, R24, R40;
60_exceptions.md R163), and the terms the statements use. -/

namespace Sys2Proof.Machine

/-! ## Safe accesses and runs -/

/-- The accesses that R51 to R53 allow, and block resets. -/
def HostAccess.allowed : HostAccess → Prop
  | .read a n => n = 4 ∧ a.toNat % 4 = 0 ∧ (a.toNat < 0x020 ∨ 0x100 ≤ a.toNat ∧ a.toNat < 0x300)
  | .write a n _ => n = 4 ∧ a.toNat % 4 = 0 ∧ (a.toNat < 0x020 ∨ 0x100 ≤ a.toNat ∧ a.toNat < 0x300)
  | .reset => True

/-- A run of `k` steps is safe if it stops at no fault and no refusal. -/
def SafeRun (k : Nat) (s : State) : Prop := ∃ t, Sys2Proof.core.run k s = .next t

/-! ## The invariant -/

/-- `v` has no bit at or above `n`. -/
def fitsIn {w : Nat} (n : Nat) (v : BitVec w) : Prop := ∀ i, n ≤ i → v.getLsbD i = false

/-- R21 and R22 while L_VALID = 1, and R40's values before that. -/
def LfsrUnit.Inv (g : LfsrUnit) : Prop :=
  if g.valid = true then
    1 ≤ g.n.toNat ∧ g.n.toNat ≤ 32 ∧
      fitsIn g.n.toNat g.state ∧ fitsIn g.n.toNat g.taps ∧ fitsIn g.n.toNat g.init
  else g = LfsrUnit.unconfigured

/-- R24 while E_VALID = 1, with R107's non-zero registers under TAP_INDEXING = REVERSED, and R40's values before. -/
def Combiner.Inv (p : Params) (e : Combiner) : Prop :=
  if e.valid = true then
    e.i17.getLsbD 16 = true ∧ e.i25.getLsbD 24 = true ∧
      (p.tapIndexing = .reversed → e.s17 ≠ 0 ∧ e.s25 ≠ 0)
  else e = Combiner.unconfigured

/-- The invariant of the state: both units', ERRSEEN set whenever ERR shows a code (R163), no carry under CARRY_RULE =
NEVER (R124), and the buffers in their canonical form. -/
def State.Inv (s : State) : Prop :=
  s.gen.Inv ∧ s.eng.Inv s.params ∧ (s.err ≠ .none → s.errSeen = true) ∧
    (s.params.carryRule = .never → s.eng.carry = false) ∧ s.buf.wf = true

/-! ## What the host can see (R26) -/

/-- The two states differ at most in what no host access reads (R26), the parameters and the stored form of the
buffers included. -/
def SeenAlike (s t : State) : Prop :=
  s.gen.valid = t.gen.valid ∧ s.eng.valid = t.eng.valid ∧ s.err = t.err ∧ s.errSeen = t.errSeen ∧
    s.result = t.result ∧ s.msglen = t.msglen ∧ s.lseed = t.lseed ∧ s.ltaps = t.ltaps ∧
    s.eseedLo = t.eseedLo ∧ s.eseedHi = t.eseedHi ∧
    (∀ a, 0x100 ≤ a → a < 0x300 → s.readByte a = t.readByte a) ∧
    s.pending = t.pending ∧ s.reads = t.reads

/-! ## The source's bit lists (R10, R100) -/

/-- The list of an N-bit register: list index `i` is register bit N-1-i (R10). -/
def bitList {w : Nat} (N : Nat) (v : BitVec w) : List Bool :=
  (List.range N).map fun i => v.getLsbD (N - 1 - i)

/-- "(Σ taps[i] * state[i]) mod 2" over two lists (R100). -/
def listFeedback : List Bool → List Bool → Bool
  | t :: ts, b :: bs => (t && b) ^^ listFeedback ts bs
  | _, _ => false

/-- The number of set bits of `v` is odd. -/
def oddBits {w : Nat} (v : BitVec w) : Bool :=
  decide (((List.range w).countP fun i => v.getLsbD i) % 2 = 1)

/-- The register after `k` steps of R100. -/
def lfsrAfter {w : Nat} (S T : BitVec w) (N : Nat) : Nat → BitVec w
  | 0 => S
  | k + 1 => (lfsrStep (lfsrAfter S T N k) T N).1

/-! ## Runs of the keystream and of commands -/

/-- The combiner after `k` reduced keystream bytes (R125). -/
def ksAfter (p : Params) (e : Combiner) : Nat → Combiner
  | 0 => e
  | k + 1 => (ksByte p (ksAfter p e k)).1

/-- The reduced keystream byte number `k`, counted from 0 (R125). -/
def ksAt (p : Params) (e : Combiner) (k : Nat) : Byte := (ksByte p (ksAfter p e k)).2

/-- The combiner after `k` raw keystream bytes (R123). -/
def rawAfter (p : Params) (e : Combiner) : Nat → Combiner
  | 0 => e
  | k + 1 => (ksRaw p (rawAfter p e k)).1

/-- The commands run one after the other, and the RESULT each of them leaves. -/
def execAll : List Instr → State → Option (State × List Word)
  | [], s => some (s, [])
  | i :: is, s =>
    match exec i s with
    | .next t =>
      match execAll is t with
      | some (u, rs) => some (u, t.result :: rs)
      | none => none
    | _ => none

/-- The byte and nibble commands of a message's digits (R147): EXB for each pair, EXN for an odd last digit. -/
def digitCommands : List Nibble → List Instr
  | [] => []
  | [q] => [.exn (q.setWidth 8)]
  | h :: l :: rest => .exb (h ++ l) :: digitCommands rest

/-- "Its results, written with hexchar" (R147): two digits for the result of an EXB, one for that of an EXN. -/
def resultDigits : List Instr → List Word → List Byte
  | .exb _ :: is, r :: rs =>
    hexChar (r.extractLsb' 4 4) :: hexChar (r.extractLsb' 0 4) :: resultDigits is rs
  | .exn _ :: is, r :: rs => hexChar (r.extractLsb' 0 4) :: resultDigits is rs
  | _, _ => []

/-! ## Messages -/

/-- The character set of R144, written out. -/
abbrev hexSet (p : Params) (c : Byte) : Prop :=
  (0x30 ≤ c.toNat ∧ c.toNat ≤ 0x39) ∨ (0x61 ≤ c.toNat ∧ c.toNat ≤ 0x66) ∨
    (p.acceptUppercase = true ∧ 0x41 ≤ c.toNat ∧ c.toNat ≤ 0x46)

/-- A digit that hexchar writes: '0'..'9' or 'a'..'f' (R142). -/
abbrev lowercaseDigit (c : Byte) : Prop :=
  (0x30 ≤ c.toNat ∧ c.toNat ≤ 0x39) ∨ (0x61 ≤ c.toNat ∧ c.toNat ≤ 0x66)

/-- `hexval(c)` of R143, written out for a character of `hexSet`. -/
def digitOf (c : Byte) : Nat :=
  if c.toNat ≤ 0x39 then c.toNat - 0x30
  else if c.toNat ≤ 0x46 then c.toNat - 0x41 + 10
  else c.toNat - 0x61 + 10

/-- The digits after the marker. -/
def digitsOf (s : State) : List Nibble :=
  (List.range (s.msglen.toNat - 2)).map fun k => BitVec.ofNat 4 (digitOf (s.msgIn (2 + k)))

/-- ETRN's checks of R145 pass, but for E_VALID. -/
def ValidMessage (s : State) : Prop :=
  2 ≤ s.msglen.toNat ∧ s.msglen.toNat ≤ 256 ∧
    ∀ k, k < s.msglen.toNat → 2 ≤ k → hexSet s.params (s.msgIn k)

/-! ## The error a command word ends with (R161, R165) -/

/-- The mask and the pattern of R74, by opcode. -/
def rowMask (op : Nat) : Option (Word × Word) :=
  match op with
  | 0x1 => some (0xFFFF000F, 0x00000001)
  | 0x2 => some (0xFFFFFFFF, 0x00000002)
  | 0x3 => some (0xFFFFFFFF, 0x00000003)
  | 0x4 => some (0xFFFFFC0F, 0x00000004)
  | 0x5 => some (0xFFFFFC0F, 0x00000005)
  | 0x6 => some (0xFFFFFFFF, 0x00000006)
  | 0x7 => some (0xFFFFFFFF, 0x00000007)
  | 0x8 => some (0xFFFFFFFF, 0x00000008)
  | 0x9 => some (0xFFFFFFFF, 0x00000009)
  | 0xA => some (0xFF00FFFF, 0x0000000A)
  | 0xB => some (0xFFF0FFFF, 0x0000000B)
  | 0xC => some (0xFFFFFFFF, 0x0000000C)
  | _ => none

/-- The word matches a row of R74. -/
def legalWord (w : Word) : Bool :=
  match rowMask (w.toNat % 16) with
  | some (mask, pattern) => w &&& mask == pattern
  | none => false

/-- The unit the command needs is not configured (R161: LRST, LNXT, LSEQ need L_VALID, the combiner and cipher commands
but ELOAD need E_VALID). -/
def unitMissing (op : Nat) (s : State) : Bool :=
  (decide (2 ≤ op ∧ op ≤ 4) && !s.gen.valid) || (decide (6 ≤ op ∧ op ≤ 12) && !s.eng.valid)

/-- LSEQ with A > 32, or ETRN with MSGLEN > 256 (R161). -/
def outOfRange (w : Word) (s : State) : Bool :=
  (decide (w.toNat % 16 = 4) && decide (32 < w.toNat / 16 % 64)) ||
    (decide (w.toNat % 16 = 12) && decide (256 < s.msglen.toNat))

/-- LCFG with A ≠ B or A outside 1..32, or ELOAD with A ≠ 40 (R161). -/
def badLength (w : Word) : Bool :=
  (decide (w.toNat % 16 = 1) &&
      decide (w.toNat / 16 % 64 ≠ w.toNat / 1024 % 64 ∨ w.toNat / 16 % 64 < 1 ∨ 32 < w.toNat / 16 % 64)) ||
    (decide (w.toNat % 16 = 5) && decide (w.toNat / 16 % 64 ≠ 40))

/-- ETRN with MSGLEN < 2, or a character after the marker that is no hex digit (R161). -/
def badMessage (w : Word) (s : State) : Bool :=
  decide (w.toNat % 16 = 12) &&
    (decide (s.msglen.toNat < 2) ||
      (List.range s.msglen.toNat).any fun k => decide (2 ≤ k) && !decide (hexSet s.params (s.msgIn k)))

/-- The code that the checks of R165 give, in their order. -/
def errorDue (w : Word) (s : State) : ErrCode :=
  if legalWord w = false then .illegal
  else if unitMissing (w.toNat % 16) s = true then .notReady
  else if outOfRange w s = true then .range
  else if badLength w = true then .config
  else if badMessage w s = true then .format
  else .none

end Sys2Proof.Machine
end

