-- ==== Sys2Proof/Certificates/Slice0/Obligations.lean ====
section
/-! DEFINITION. The statements about the block. In a statement about a step, `{ s with pending := x :: rest }` is a state
whose next host access is `x`, and `{ s with pending := rest }` the same state with that access taken. An equation
`… = .next { s with … }` says both that the command completes and what it leaves unchanged: every field it does not
name, every byte of the buffers among them. -/

open Sys2Proof Sys2Proof.Machine

/-! ## Encoding -/

/-- 30_encoding.md R71, R72, R74: decoding the word of any well-formed command gives that command, every operand at
every value; and a word stands for no other command than the one whose word it is, so that no bit of a word is dropped. -/
def Obligations.DecodeAndEncodeAgree : Prop :=
  (∀ i : Instr, i.wf = true → decode (encode i) = .ok i) ∧
  (∀ (w : Word) (i : Instr), decode w = .ok i → i.wf = true ∧ encode i = w)

/-- 30_encoding.md R75, R76: a word is a command exactly when it matches a row of R74; the two illegal cases are told
apart, and either ends with ILLEGAL and no other effect; the all-zero word is one of them. -/
def Obligations.OtherWordsAreIllegal : Prop :=
  (∀ w : Word, (∃ i, decode w = .ok i) ↔ legalWord w = true) ∧
  (∀ w : Word, decode w = .error .reservedOpcode ↔
    w.toNat % 16 = 0x0 ∨ w.toNat % 16 = 0xD ∨ w.toNat % 16 = 0xE ∨ w.toNat % 16 = 0xF) ∧
  (∀ w : Word, decode w = .error .unusedBitSet ↔
    ∃ mask pattern, rowMask (w.toNat % 16) = some (mask, pattern) ∧ w &&& mask ≠ pattern) ∧
  (∀ (w : Word) (r : DecodeReject) (s : State) (rest : List HostAccess), decode w = .error r →
    step { s with pending := .write 0x000 4 w :: rest } =
      .next { s with pending := rest, err := .illegal, errSeen := true }) ∧
  decode 0x00000000 = .error .reservedOpcode

/-- 30_encoding.md R82: the words of the table of common commands, and its illegal examples. -/
def Obligations.CommonCommandWords : Prop :=
  decode 0x00001041 = .ok (.lcfg 4 4) ∧ decode 0x00001441 = .ok (.lcfg 4 5) ∧
  decode 0x00004511 = .ok (.lcfg 17 17) ∧ decode 0x00008201 = .ok (.lcfg 32 32) ∧
  decode 0x00000001 = .ok (.lcfg 0 0) ∧ decode 0x00000002 = .ok .lrst ∧
  decode 0x00000003 = .ok .lnxt ∧ decode 0x00000084 = .ok (.lseq 8) ∧
  decode 0x00000204 = .ok (.lseq 32) ∧ decode 0x00000214 = .ok (.lseq 33) ∧
  decode 0x00000285 = .ok (.eload 40) ∧ decode 0x00000275 = .ok (.eload 39) ∧
  decode 0x00000006 = .ok .erst ∧ decode 0x00000007 = .ok .eksr ∧
  decode 0x00000008 = .ok .eksb ∧ decode 0x00000009 = .ok .ebeg ∧
  decode 0x00FF000A = .ok (.exb 0xFF) ∧ decode 0x00AB000A = .ok (.exb 0xAB) ∧
  decode 0x000C000B = .ok (.exn 0xC) ∧ decode 0x0000000C = .ok .etrn ∧
  decode 0x00000000 = .error .reservedOpcode ∧ decode 0x0000000D = .error .reservedOpcode ∧
  decode 0x00000012 = .error .unusedBitSet ∧ decode 0x01000003 = .error .unusedBitSet ∧
  decode 0x001F000B = .error .unusedBitSet

/-! ## The step -/

/-- 10_state.md R27, 30_encoding.md R79 and R81: a write of a command's word to CMD runs that command on the state the
write found. That the host's accesses stand in `pending` is the model's choice (log entry 4). -/
def Obligations.StepRunsTheDecodedCommand : Prop :=
  (∀ (w : Word) (i : Instr) (s : State) (rest : List HostAccess), decode w = .ok i →
    step { s with pending := .write 0x000 4 w :: rest } = exec i { s with pending := rest }) ∧
  (∀ (i : Instr) (s : State) (rest : List HostAccess), i.wf = true →
    step { s with pending := .write 0x000 4 (encode i) :: rest } = exec i { s with pending := rest }) ∧
  (∀ (n w : Nat) (i : Instr) (s : State), decodeTableWord n w = some i →
    step (s.withFetchWord n w) = exec i s) ∧
  (∀ (n w : Nat) (s : State), decodeTableWord n w = none →
    step (s.withFetchWord n w) = .next { s with err := .illegal, errSeen := true })

/-- 60_exceptions.md R160, R163: a CMD write of any word completes, with success or with exactly one code; with a code
it changes STATUS.ERR and STATUS.ERRSEEN and nothing else. R164: with success ERRSEEN is unchanged. -/
def Obligations.EveryCommandWordCompletes : Prop :=
  ∀ (w : Word) (s : State) (rest : List HostAccess), ∃ t,
    step { s with pending := .write 0x000 4 w :: rest } = .next t ∧
    ((t.err = .none ∧ t.errSeen = s.errSeen) ∨
      (t.err ≠ .none ∧ t = { s with pending := rest, err := t.err, errSeen := true }))

/-- 60_exceptions.md R165 (with R161): the checks' order, for every word and every state. -/
def Obligations.FirstFailingCheckGivesTheCode : Prop :=
  ∀ (w : Word) (s : State) (rest : List HostAccess), ∃ t,
    step { s with pending := .write 0x000 4 w :: rest } = .next t ∧ t.err = errorDue w s

/-- 20_memory.md R52, R53, 60_exceptions.md R166: exactly the accesses the bus does not allow stop, with a bus error
and no next state; every other access and every block reset completes. -/
def Obligations.OnlyRefusedAccessesFault : Prop :=
  ∀ (s : State) (x : HostAccess) (rest : List HostAccess),
    (x.allowed → ∃ t, step { s with pending := x :: rest } = .next t) ∧
    (¬ x.allowed → step { s with pending := x :: rest } = .fault (.busError x))

/-- 60_exceptions.md R160, R166, 20_memory.md R65: a host sequence of allowed accesses never stops, however long the
run, and whatever its commands report. That the idle block steps to itself is the model's choice (log entry 4). -/
def Obligations.AllowedSequencesNeverStop : Prop :=
  ∀ (k : Nat) (s : State), (∀ x ∈ s.pending, x.allowed) → SafeRun k s

/-! ## Invariants and reset -/

/-- 10_state.md R22, R24, R107, R124, R163 as one invariant: every step from every state that has it gives a state that
has it. The parameters of R8 never change (log entry 1). -/
def Obligations.StepKeepsTheStateInvariant : Prop :=
  ∀ s t : State, s.Inv → step s = .next t → t.Inv ∧ t.params = s.params

/-- The invariant holds after reset, whatever the parameters. -/
def Obligations.ResetHasTheStateInvariant : Prop :=
  State.reset.Inv ∧ ∀ p : Params, (State.resetWith p).Inv

/-- 70_reset_and_hazards.md R181, 10_state.md R40: a block reset completes from any state and leaves these values, as
does `State.reset`. That the unspecified buffer bytes are free values drawn anew is the model's choice (log entries 2
and 3). -/
def Obligations.BlockResetClearsTheBlock : Prop :=
  ∀ (s : State) (rest : List HostAccess), ∃ t, step { s with pending := .reset :: rest } = .next t ∧
    t.pending = rest ∧ (∀ a, t.readByte a = Config.unwrittenByte (s.resets + 1) a) ∧
    ∀ u, u = t ∨ u = State.reset →
      u.gen = { n := 0, state := 0, taps := 0, init := 0, valid := false } ∧
      u.eng = { s17 := 0, i17 := 0, s25 := 0, i25 := 0, carry := false, valid := false } ∧
      statusWord u = 0 ∧ u.result = 0 ∧ u.msglen = 0 ∧ u.lseed = 0 ∧ u.ltaps = 0 ∧
      u.eseedLo = 0 ∧ u.eseedHi = 0

/-- 70_reset_and_hazards.md R182: LRST and ERST need a configured unit and restore the seed saved at construction;
only a block reset clears L_VALID, E_VALID and ERRSEEN, and it does. -/
def Obligations.OnlyBlockResetUnconfigures : Prop :=
  (∀ s : State, s.gen.valid = false → exec .lrst s = .next { s with err := .notReady, errSeen := true }) ∧
  (∀ s : State, s.eng.valid = false → exec .erst s = .next { s with err := .notReady, errSeen := true }) ∧
  (∀ s : State, s.gen.valid = true → ∃ t, exec .lrst s = .next t ∧ t.gen.state = s.gen.init) ∧
  (∀ s : State, s.eng.valid = true →
    ∃ t, exec .erst s = .next t ∧ t.eng.s17 = s.eng.i17 ∧ t.eng.s25 = s.eng.i25) ∧
  (∀ (s t : State) (x : HostAccess) (rest : List HostAccess), x ≠ .reset →
    step { s with pending := x :: rest } = .next t →
      (s.gen.valid = true → t.gen.valid = true) ∧ (s.eng.valid = true → t.eng.valid = true) ∧
      (s.errSeen = true → t.errSeen = true)) ∧
  (∀ (s : State) (rest : List HostAccess), ∃ t, step { s with pending := .reset :: rest } = .next t ∧
    t.gen.valid = false ∧ t.eng.valid = false ∧ t.errSeen = false)

/-! ## The host bus -/

/-- 10_state.md R28: the fields of STATUS; a host reads it at 0x004, and a host write to it is ignored. -/
def Obligations.StatusRegisterFields : Prop :=
  ∀ s : State,
    ((statusWord s).toNat % 16 =
      (match s.err with
       | .none => 0 | .config => 1 | .format => 2 | .illegal => 3 | .notReady => 4 | .range => 5)) ∧
    (statusWord s).getLsbD 4 = s.errSeen ∧ (statusWord s).getLsbD 5 = s.gen.valid ∧
    (statusWord s).getLsbD 6 = s.eng.valid ∧ (∀ i, 7 ≤ i → (statusWord s).getLsbD i = false) ∧
    (∀ rest, step { s with pending := .read 0x004 4 :: rest } =
      .next { s with pending := rest, reads := statusWord s :: s.reads }) ∧
    (∀ rest v, step { s with pending := .write 0x004 4 v :: rest } = .next { s with pending := rest })

/-- 20_memory.md R54: the effect of an aligned 4-byte access to each defined address, and that only a CMD write (or a
block reset, which is no access) changes unit state or STATUS. -/
def Obligations.EffectsOfDefinedAddresses : Prop :=
  (∀ (s : State) (rest : List HostAccess),
    let seen := fun v : Word =>
      (Host.Outcome.next { s with pending := rest, reads := v :: s.reads } : Host.Outcome State Fault Refusal)
    step { s with pending := .read 0x000 4 :: rest } = seen 0 ∧
    step { s with pending := .read 0x004 4 :: rest } = seen (statusWord s) ∧
    step { s with pending := .read 0x008 4 :: rest } = seen s.result ∧
    step { s with pending := .read 0x00C 4 :: rest } = seen (BitVec.ofNat 32 s.msglen.toNat) ∧
    step { s with pending := .read 0x010 4 :: rest } = seen s.lseed ∧
    step { s with pending := .read 0x014 4 :: rest } = seen s.ltaps ∧
    step { s with pending := .read 0x018 4 :: rest } = seen s.eseedLo ∧
    step { s with pending := .read 0x01C 4 :: rest } = seen (BitVec.ofNat 32 s.eseedHi.toNat)) ∧
  (∀ (s : State) (rest : List HostAccess) (v : Word),
    step { s with pending := .write 0x004 4 v :: rest } = .next { s with pending := rest } ∧
    step { s with pending := .write 0x008 4 v :: rest } = .next { s with pending := rest } ∧
    step { s with pending := .write 0x00C 4 v :: rest } =
      .next { s with pending := rest, msglen := BitVec.ofNat 16 (v.toNat % 2 ^ 16) } ∧
    step { s with pending := .write 0x010 4 v :: rest } = .next { s with pending := rest, lseed := v } ∧
    step { s with pending := .write 0x014 4 v :: rest } = .next { s with pending := rest, ltaps := v } ∧
    step { s with pending := .write 0x018 4 v :: rest } = .next { s with pending := rest, eseedLo := v } ∧
    step { s with pending := .write 0x01C 4 v :: rest } =
      .next { s with pending := rest, eseedHi := BitVec.ofNat 8 (v.toNat % 2 ^ 8) }) ∧
  (∀ (s : State) (rest : List HostAccess) (a : BusAddr) (v : Word), a.toNat % 4 = 0 →
    (0x100 ≤ a.toNat → a.toNat < 0x300 → step { s with pending := .read a 4 :: rest } =
      .next { s with pending := rest, reads := s.readWord a.toNat :: s.reads }) ∧
    (0x100 ≤ a.toNat → a.toNat < 0x200 → step { s with pending := .write a 4 v :: rest } =
      .next (State.writeWord { s with pending := rest } a.toNat v)) ∧
    (0x200 ≤ a.toNat → a.toNat < 0x300 →
      step { s with pending := .write a 4 v :: rest } = .next { s with pending := rest })) ∧
  (∀ (s t : State) (rest : List HostAccess) (x : HostAccess),
    x ≠ .reset → (∀ v, x ≠ .write 0x000 4 v) → step { s with pending := x :: rest } = .next t →
      t.gen = s.gen ∧ t.eng = s.eng ∧ statusWord t = statusWord s)

/-- 20_memory.md R55: a read repeated returns the same data and changes nothing; a write that is no command leaves the
same state done once or twice; LNXT twice is two steps of the register. -/
def Obligations.ReadsRepeatAndWritesAreIdempotent : Prop :=
  (∀ (s t : State) (a : BusAddr) (n : Nat) (rest : List HostAccess),
    step { s with pending := .read a n :: .read a n :: rest } = .next t →
      ∃ v, t = { s with pending := .read a n :: rest, reads := v :: s.reads } ∧
        step t = .next { s with pending := rest, reads := v :: v :: s.reads }) ∧
  (∀ (s t : State) (a : BusAddr) (n : Nat) (v : Word) (rest : List HostAccess), 4 ≤ a.toNat →
    step { s with pending := .write a n v :: .write a n v :: rest } = .next t →
      step t = step { s with pending := .write a n v :: rest }) ∧
  (∀ (s : State), s.gen.valid = true → ∃ t u, exec .lnxt s = .next t ∧ exec .lnxt t = .next u ∧
    u.gen = { s.gen with state := lfsrAfter s.gen.state s.gen.taps s.gen.n.toNat 2 })

/-- 20_memory.md R56: a buffer word is four bytes in little-endian lanes, read from either buffer and written to
MSGIN; no other byte and nothing else changes. -/
def Obligations.BufferWordsAreLittleEndian : Prop :=
  (∀ (s : State) (rest : List HostAccess) (a : BusAddr), a.toNat % 4 = 0 → 0x100 ≤ a.toNat → a.toNat < 0x300 →
    ∃ v : Word, step { s with pending := .read a 4 :: rest } =
        .next { s with pending := rest, reads := v :: s.reads } ∧
      v.toNat = (s.readByte a.toNat).toNat + 2 ^ 8 * (s.readByte (a.toNat + 1)).toNat
        + 2 ^ 16 * (s.readByte (a.toNat + 2)).toNat + 2 ^ 24 * (s.readByte (a.toNat + 3)).toNat) ∧
  (∀ (s : State) (rest : List HostAccess) (a : BusAddr) (v : Word),
    a.toNat % 4 = 0 → 0x100 ≤ a.toNat → a.toNat < 0x200 →
    ∃ t, step { s with pending := .write a 4 v :: rest } = .next t ∧
      t = { s with pending := rest, buf := t.buf } ∧
      (∀ j, j < 4 → t.readByte (a.toNat + j) = BitVec.ofNat 8 (v.toNat / 2 ^ (8 * j) % 2 ^ 8)) ∧
      (∀ c, (c < a.toNat ∨ a.toNat + 4 ≤ c) → t.readByte c = s.readByte c))

/-- 20_memory.md R60: a read returns the value that the write just before it put there, to the writable bits. -/
def Obligations.ReadReturnsTheLastWrite : Prop :=
  ∀ (s : State) (a : BusAddr) (v : Word) (rest : List HostAccess),
    a.toNat % 4 = 0 → (0x00C ≤ a.toNat ∧ a.toNat < 0x020 ∨ 0x100 ≤ a.toNat ∧ a.toNat < 0x200) →
    ∃ t u, step { s with pending := .write a 4 v :: .read a 4 :: rest } = .next t ∧ step t = .next u ∧
      u.pending = rest ∧
      u.reads = (if a = 0x00C then v &&& 0x0000FFFF else if a = 0x01C then v &&& 0x000000FF else v) :: s.reads

/-- 20_memory.md R57: only host writes and block resets change MSGIN; only ETRN and block resets change MSGOUT, and
ETRN only below MSGLEN. -/
def Obligations.WhoChangesTheBuffers : Prop :=
  (∀ (s t : State) (x : HostAccess) (rest : List HostAccess) (k : Nat), k < 256 →
    step { s with pending := x :: rest } = .next t → t.msgIn k ≠ s.msgIn k →
      x = .reset ∨ ∃ a v, x = .write a 4 v ∧ 0x100 ≤ a.toNat ∧ a.toNat < 0x200) ∧
  (∀ (s t : State) (x : HostAccess) (rest : List HostAccess) (k : Nat), k < 256 →
    step { s with pending := x :: rest } = .next t → t.msgOut k ≠ s.msgOut k →
      x = .reset ∨ (x = .write 0x000 4 0x0000000C ∧ k < s.msglen.toNat))

/-- 10_state.md R26: two states that differ at most in what no host access reads answer every access that is no
command (and no block reset) alike: the same data, the same bus error, and again no visible difference. -/
def Obligations.HiddenStateIsNotReadable : Prop :=
  ∀ (s t : State) (x : HostAccess) (rest : List HostAccess),
    SeenAlike s t → x ≠ .reset → (∀ v, x ≠ .write 0x000 4 v) →
      (∃ s' t', step { s with pending := x :: rest } = .next s' ∧
          step { t with pending := x :: rest } = .next t' ∧ SeenAlike s' t') ∨
        (step { s with pending := x :: rest } = .fault (.busError x) ∧
          step { t with pending := x :: rest } = .fault (.busError x))

/-! ## Frames over all commands -/

/-- 10_state.md R29: which commands write RESULT, and the range of what they write. -/
def Obligations.ResultRegisterWriters : Prop :=
  ∀ (i : Instr) (s t : State), exec i s = .next t →
    (t.err ≠ .none → t.result = s.result) ∧
    (t.err = .none →
      match i with
      | .lcfg _ _ => t.result = s.result
      | .lrst => t.result = s.result
      | .lnxt => t.result.toNat ≤ 1
      | .lseq k => t.result.toNat < 2 ^ k.toNat
      | .eload _ => t.result = s.result
      | .erst => t.result = s.result
      | .eksr => t.result.toNat ≤ 510
      | .eksb => t.result.toNat ≤ 255
      | .ebeg => t.result = s.result
      | .exb _ => t.result.toNat ≤ 255
      | .exn _ => t.result.toNat ≤ 15
      | .etrn => t.result.toNat = s.msglen.toNat)

/-- 00_scope.md R7, 10_state.md R25, R35, 41_combiner.md R122: the frame of every command. The generic unit's commands
leave the combiner, the carry among it, as it was, and the others leave the generic unit; no command changes an operand
register, MSGIN, the parameters, or the host's side; and none but ETRN changes a buffer byte. -/
def Obligations.CommandFrames : Prop :=
  ∀ (i : Instr) (s t : State), exec i s = .next t →
    t.msglen = s.msglen ∧ t.lseed = s.lseed ∧ t.ltaps = s.ltaps ∧ t.eseedLo = s.eseedLo ∧
    t.eseedHi = s.eseedHi ∧ t.params = s.params ∧ t.resets = s.resets ∧ t.pending = s.pending ∧
    t.reads = s.reads ∧ (∀ k, k < 256 → t.msgIn k = s.msgIn k) ∧
    (i ≠ .etrn → ∀ a, t.readByte a = s.readByte a) ∧
    match i with
    | .lcfg _ _ => t.eng = s.eng
    | .lrst => t.eng = s.eng
    | .lnxt => t.eng = s.eng
    | .lseq _ => t.eng = s.eng
    | .eload _ => t.gen = s.gen
    | .erst => t.gen = s.gen
    | .eksr => t.gen = s.gen ∧ t.eng.carry = s.eng.carry
    | .eksb => t.gen = s.gen
    | .ebeg => t.gen = s.gen
    | .exb _ => t.gen = s.gen
    | .exn _ => t.gen = s.gen
    | .etrn => t.gen = s.gen

/-! ## The LFSR step -/

/-- 40_lfsr.md R100 (with 00_scope.md R10): output, feedback and shift, bit by bit; that no bit appears at or above N;
and that on a register without such bits the step is the source's step on bit lists. -/
def Obligations.LfsrStepIsTheListStep : Prop :=
  ∀ (w : Nat) (S T : BitVec w) (N : Nat), 1 ≤ N → N ≤ w →
    (lfsrStep S T N).2 = S.getLsbD 0 ∧
    (∀ i, i < w → (lfsrStep S T N).1.getLsbD i =
      (S.getLsbD (i + 1) || (decide (i = N - 1) && oddBits (S &&& T)))) ∧
    (fitsIn N S →
      fitsIn N (lfsrStep S T N).1 ∧
      bitList N (lfsrStep S T N).1 =
        listFeedback (bitList N T) (bitList N S) :: (bitList N S).dropLast ∧
      (bitList N S).getLast? = some (lfsrStep S T N).2)

/-- 40_lfsr.md R105: with zero taps, LSEQ N straight after LCFG returns the seed and leaves the register 0. -/
def Obligations.ZeroTapsReproduceTheSeed : Prop :=
  ∀ (s : State) (n : BitVec 6), s.ltaps = 0 → 1 ≤ n.toNat → n.toNat ≤ 32 →
    ∃ t u, exec (.lcfg n n) s = .next t ∧ exec (.lseq n) t = .next u ∧
      t.gen.init.toNat = s.lseed.toNat % 2 ^ n.toNat ∧ u.result = t.gen.init ∧ u.gen.state = 0

/-- 40_lfsr.md R106: the first k ≤ N outputs are the low k bits, and the state after them is the rest shifted down
under the k feedback bits, the first of them lowest. -/
def Obligations.LowBitsComeOutFirst : Prop :=
  ∀ (w m : Nat) (S T : BitVec w) (N k : Nat), 1 ≤ N → N ≤ w → k ≤ N → k ≤ m → fitsIn N S →
    (lfsrDraw m S T N k).2.toNat = S.toNat % 2 ^ k ∧
    ∃ F : BitVec w, fitsIn k F ∧
      (∀ j, j < k → F.getLsbD j = oddBits (lfsrAfter S T N j &&& T)) ∧
      (lfsrDraw m S T N k).1 = (S >>> k) ||| (F <<< (N - k))

/-- 40_lfsr.md R107: the zero state is fixed; under REVERSED both combiner steps are invertible and no seed ever leads
to the zero state; under LITERAL neither step is invertible. -/
def Obligations.ZeroStateIsFixedAndUnreachable : Prop :=
  (∀ (w : Nat) (T : BitVec w) (N : Nat), lfsrStep 0 T N = (0, false)) ∧
  (∀ S S' : BitVec 17, (lfsrStep S (t17 .reversed) 17).1 = (lfsrStep S' (t17 .reversed) 17).1 → S = S') ∧
  (∀ S S' : BitVec 25, (lfsrStep S (t25 .reversed) 25).1 = (lfsrStep S' (t25 .reversed) 25).1 → S = S') ∧
  (∀ (seed : BitVec 40) (k : Nat),
    lfsrAfter (init17 seed) (t17 .reversed) 17 k ≠ 0 ∧ lfsrAfter (init25 seed) (t25 .reversed) 25 k ≠ 0) ∧
  (∃ S S' : BitVec 17, S ≠ S' ∧ (lfsrStep S (t17 .literal) 17).1 = (lfsrStep S' (t17 .literal) 17).1) ∧
  (∃ S S' : BitVec 25, S ≠ S' ∧ (lfsrStep S (t25 .literal) 25).1 = (lfsrStep S' (t25 .literal) 25).1)

/-- 40_lfsr.md R108: under REVERSED, L17 returns to 0x10000 after 2^17 - 1 steps and not sooner. -/
def Obligations.PeriodOfL17 : Prop :=
  lfsrAfter (0x10000 : BitVec 17) (t17 .reversed) 17 131071 = 0x10000 ∧
  ∀ k, 0 < k → k < 131071 → lfsrAfter (0x10000 : BitVec 17) (t17 .reversed) 17 k ≠ 0x10000

/-! ## The generic unit's commands -/

/-- 40_lfsr.md R101: LCFG's words, its two CONFIG cases, and the construction it makes. -/
def Obligations.LcfgConfiguresTheUnit : Prop :=
  (∀ (w : Word) (a b : BitVec 6), decode w = .ok (.lcfg a b) ↔
    w &&& 0xFFFF000F = 0x00000001 ∧ a.toNat = w.toNat / 2 ^ 4 % 64 ∧ b.toNat = w.toNat / 2 ^ 10 % 64) ∧
  (∀ (a b : BitVec 6) (s : State), a ≠ b →
    exec (.lcfg a b) s = .next { s with err := .config, errSeen := true }) ∧
  (∀ (a : BitVec 6) (s : State), a.toNat = 0 ∨ 32 < a.toNat →
    exec (.lcfg a a) s = .next { s with err := .config, errSeen := true }) ∧
  (∀ (a : BitVec 6) (s : State), 1 ≤ a.toNat → a.toNat ≤ 32 →
    let seed := BitVec.ofNat 32 (s.lseed.toNat % 2 ^ a.toNat)
    let taps := BitVec.ofNat 32 (s.ltaps.toNat % 2 ^ a.toNat)
    exec (.lcfg a a) s =
      .next { s with gen := { n := a, state := seed, taps := taps, init := seed, valid := true }, err := .none })

/-- 40_lfsr.md R102: LRST restores the saved seed, not LSEED; length and taps stay. -/
def Obligations.LrstRestoresTheSeed : Prop :=
  (∀ w : Word, decode w = .ok .lrst ↔ w = 0x00000002) ∧
  (∀ s : State, s.gen.valid = false → exec .lrst s = .next { s with err := .notReady, errSeen := true }) ∧
  (∀ s : State, s.gen.valid = true →
    exec .lrst s = .next { s with gen := { s.gen with state := s.gen.init }, err := .none })

/-- 40_lfsr.md R103: LNXT returns the low bit and takes one step, for every length. -/
def Obligations.LnxtReturnsOneBit : Prop :=
  (∀ w : Word, decode w = .ok .lnxt ↔ w = 0x00000003) ∧
  (∀ s : State, s.gen.valid = false → exec .lnxt s = .next { s with err := .notReady, errSeen := true }) ∧
  (∀ s : State, s.gen.valid = true →
    exec .lnxt s = .next
      { s with
        gen := { s.gen with state := (lfsrStep s.gen.state s.gen.taps s.gen.n.toNat).1 }
        result := BitVec.ofNat 32 (s.gen.state.toNat % 2)
        err := .none })

/-- 40_lfsr.md R104: LSEQ k packs k outputs, the first in bit 0; NOTREADY comes before RANGE. -/
def Obligations.LseqPacksTheOutputs : Prop :=
  (∀ (w : Word) (k : BitVec 6), decode w = .ok (.lseq k) ↔
    w &&& 0xFFFFFC0F = 0x00000004 ∧ k.toNat = w.toNat / 2 ^ 4 % 64) ∧
  (∀ (k : BitVec 6) (s : State), s.gen.valid = false →
    exec (.lseq k) s = .next { s with err := .notReady, errSeen := true }) ∧
  (∀ (k : BitVec 6) (s : State), s.gen.valid = true → 32 < k.toNat →
    exec (.lseq k) s = .next { s with err := .range, errSeen := true }) ∧
  (∀ (k : BitVec 6) (s : State), s.gen.valid = true → k.toNat ≤ 32 →
    ∃ r : Word,
      exec (.lseq k) s = .next
        { s with
          gen := { s.gen with state := lfsrAfter s.gen.state s.gen.taps s.gen.n.toNat k.toNat }
          result := r
          err := .none } ∧
      ∀ j, r.getLsbD j =
        (decide (j < k.toNat) && (lfsrAfter s.gen.state s.gen.taps s.gen.n.toNat j).getLsbD 0))

/-! ## The combiner -/

/-- 10_state.md R23: the tap masks and feedback bits under each TAP_INDEXING. -/
def Obligations.CombinerTapMasks : Prop :=
  t17 .reversed = 0x04001 ∧ t25 .reversed = 0x0001019 ∧ t17 .literal = 0x10004 ∧ t25 .literal = 0x1301000 ∧
  (∀ S : BitVec 17, (lfsrStep S (t17 .reversed) 17).1.getLsbD 16 = (S.getLsbD 14 ^^ S.getLsbD 0) ∧
    (lfsrStep S (t17 .literal) 17).1.getLsbD 16 = (S.getLsbD 16 ^^ S.getLsbD 2)) ∧
  (∀ S : BitVec 25,
    (lfsrStep S (t25 .reversed) 25).1.getLsbD 24 =
      (S.getLsbD 12 ^^ S.getLsbD 4 ^^ S.getLsbD 3 ^^ S.getLsbD 0) ∧
    (lfsrStep S (t25 .literal) 25).1.getLsbD 24 =
      (S.getLsbD 24 ^^ S.getLsbD 21 ^^ S.getLsbD 20 ^^ S.getLsbD 12))

/-- 41_combiner.md R120, R121: ELOAD's words, its CONFIG case, and the registers it builds from the 40-bit seed. -/
def Obligations.EloadBuildsTheCombiner : Prop :=
  (∀ (w : Word) (n : BitVec 6), decode w = .ok (.eload n) ↔
    w &&& 0xFFFFFC0F = 0x00000005 ∧ n.toNat = w.toNat / 2 ^ 4 % 64) ∧
  (∀ (n : BitVec 6) (s : State), n.toNat ≠ 40 →
    exec (.eload n) s = .next { s with err := .config, errSeen := true }) ∧
  (∀ s : State,
    let seed := s.eseedHi.toNat * 2 ^ 32 + s.eseedLo.toNat
    let i17 := BitVec.ofNat 17 (2 ^ 16 + seed / 2 ^ 24)
    let i25 := BitVec.ofNat 25 (2 ^ 24 + seed % 2 ^ 24)
    exec (.eload 40) s = .next
      { s with
        eng := { s17 := i17, i17 := i17, s25 := i25, i25 := i25, carry := false, valid := true }
        err := .none })

/-- 41_combiner.md R122: ERST restores both registers and clears the carry. -/
def Obligations.ErstRestoresTheCombiner : Prop :=
  (∀ w : Word, decode w = .ok .erst ↔ w = 0x00000006) ∧
  (∀ s : State, s.eng.valid = false → exec .erst s = .next { s with err := .notReady, errSeen := true }) ∧
  (∀ s : State, s.eng.valid = true →
    exec .erst s = .next
      { s with
        eng := { s.eng with s17 := s.eng.i17, s25 := s.eng.i25, carry := false }
        err := .none })

/-- 41_combiner.md R123, 20_memory.md R58: a raw byte is the sum of 8 outputs of each register, the first output of
each in bit 0; the carry and the seeds stay. -/
def Obligations.RawByteIsTheSumOfTwoDraws : Prop :=
  ∀ (p : Params) (e : Combiner), ∃ x y : Byte,
    (∀ j, j < 8 → x.getLsbD j = (lfsrAfter e.s17 (t17 p.tapIndexing) 17 j).getLsbD 0) ∧
    (∀ j, j < 8 → y.getLsbD j = (lfsrAfter e.s25 (t25 p.tapIndexing) 25 j).getLsbD 0) ∧
    ksRaw p e =
      ({ e with
          s17 := lfsrAfter e.s17 (t17 p.tapIndexing) 17 8
          s25 := lfsrAfter e.s25 (t25 p.tapIndexing) 25 8 }, x.toNat + y.toNat)

/-- 41_combiner.md R126: EKSR returns the raw byte and neither reads nor writes the carry. -/
def Obligations.EksrReturnsTheRawByte : Prop :=
  (∀ w : Word, decode w = .ok .eksr ↔ w = 0x00000007) ∧
  (∀ s : State, s.eng.valid = false → exec .eksr s = .next { s with err := .notReady, errSeen := true }) ∧
  (∀ s : State, s.eng.valid = true →
    exec .eksr s = .next
      { s with
        eng := { (ksRaw s.params s.eng).1 with carry := s.eng.carry }
        result := BitVec.ofNat 32 (ksRaw s.params s.eng).2
        err := .none } ∧
    ∀ c, (ksRaw s.params { s.eng with carry := c }).2 = (ksRaw s.params s.eng).2)

/-- 41_combiner.md R124, R125, R127: EKSB reduces the raw byte with the incoming carry, and the carry it leaves comes
from the raw byte alone, by CARRY_RULE. -/
def Obligations.EksbThreadsTheCarry : Prop :=
  (∀ w : Word, decode w = .ok .eksb ↔ w = 0x00000008) ∧
  (∀ s : State, s.eng.valid = false → exec .eksb s = .next { s with err := .notReady, errSeen := true }) ∧
  (∀ s : State, s.eng.valid = true →
    exec .eksb s = .next
      { s with
        eng :=
          { (ksRaw s.params s.eng).1 with
            carry := decide (s.params.carryRule = .rawSum) && decide (255 < (ksRaw s.params s.eng).2) }
        result := BitVec.ofNat 32
          (((ksRaw s.params s.eng).2 + (if s.eng.carry = true then 1 else 0)) % 256)
        err := .none })

/-- 41_combiner.md R128: EBEG clears the carry and nothing else. -/
def Obligations.EbegClearsTheCarry : Prop :=
  (∀ w : Word, decode w = .ok .ebeg ↔ w = 0x00000009) ∧
  (∀ s : State, s.eng.valid = false → exec .ebeg s = .next { s with err := .notReady, errSeen := true }) ∧
  (∀ s : State, s.eng.valid = true →
    exec .ebeg s = .next { s with eng := { s.eng with carry := false }, err := .none })

/-- 41_combiner.md R129: a draw is the low bytes of the two registers, and the first outputs after ELOAD are the seed's
bits and the leading 1, under either TAP_INDEXING. -/
def Obligations.ClosedFormOfTheFirstDraws : Prop :=
  (∀ (p : Params) (e : Combiner), (ksRaw p e).2 = e.s17.toNat % 256 + e.s25.toNat % 256) ∧
  (∀ (p : Params) (seed : BitVec 40),
    let x := fun j => (rawAfter p (Combiner.ofSeed seed) j).s17.toNat % 256
    let y := fun j => (rawAfter p (Combiner.ofSeed seed) j).s25.toNat % 256
    x 0 = seed.toNat / 2 ^ 24 % 256 ∧ y 0 = seed.toNat % 256 ∧
    x 1 = seed.toNat / 2 ^ 32 ∧ y 1 = seed.toNat / 2 ^ 8 % 256 ∧
    y 2 = seed.toNat / 2 ^ 16 % 256 ∧ x 2 % 2 = 1 ∧ y 3 % 2 = 1) ∧
  (∀ (x : TapIndexing) (seed : BitVec 40),
    (∀ i, i < 17 → (lfsrAfter (init17 seed) (t17 x) 17 i).getLsbD 0 = (init17 seed).getLsbD i) ∧
    (∀ i, i < 25 → (lfsrAfter (init25 seed) (t25 x) 25 i).getLsbD 0 = (init25 seed).getLsbD i))

/-- 41_combiner.md R130: the range of a raw byte and the carry's condition. -/
def Obligations.RangesOfKeystreamBytes : Prop :=
  ∀ (p : Params) (e : Combiner),
    (ksRaw p e).2 ≤ 510 ∧
    ((ksRaw p e).2 = 510 ↔ e.s17.toNat % 256 = 0xFF ∧ e.s25.toNat % 256 = 0xFF) ∧
    (p.carryRule = .rawSum →
      ((ksByte p e).1.carry = true ↔ 256 ≤ e.s17.toNat % 256 + e.s25.toNat % 256)) ∧
    (p.carryRule = .never → (ksByte p e).1.carry = false) ∧
    (ksByte p e).2.toNat ≤ 255

/-! ## The cipher unit -/

/-- 42_cipher.md R140: EXB XORs the byte D with one reduced keystream byte. -/
def Obligations.ExbXorsAByte : Prop :=
  (∀ (w : Word) (d : Byte), decode w = .ok (.exb d) ↔
    w &&& 0xFF00FFFF = 0x0000000A ∧ d.toNat = w.toNat / 2 ^ 16 % 256) ∧
  (∀ (d : Byte) (s : State), s.eng.valid = false →
    exec (.exb d) s = .next { s with err := .notReady, errSeen := true }) ∧
  (∀ (d : Byte) (s : State), s.eng.valid = true →
    exec (.exb d) s = .next
      { s with
        eng := (ksByte s.params s.eng).1
        result := BitVec.ofNat 32 (d.toNat ^^^ (ksByte s.params s.eng).2.toNat)
        err := .none })

/-- 42_cipher.md R141: EXN XORs the nibble D[3:0] with bits 7:4 of one whole reduced keystream byte. -/
def Obligations.ExnXorsANibble : Prop :=
  (∀ (w : Word) (d : Byte), decode w = .ok (.exn d) ↔
    w &&& 0xFFF0FFFF = 0x0000000B ∧ d.toNat = w.toNat / 2 ^ 16 % 256) ∧
  (∀ (d : Byte) (s : State), s.eng.valid = false →
    exec (.exn d) s = .next { s with err := .notReady, errSeen := true }) ∧
  (∀ (d : Byte) (s : State), s.eng.valid = true →
    exec (.exn d) s = .next
      { s with
        eng := (ksByte s.params s.eng).1
        result := BitVec.ofNat 32 (d.toNat % 16 ^^^ (ksByte s.params s.eng).2.toNat / 16)
        err := .none })

/-- 42_cipher.md R142 to R144: the digits' characters, their values, and which characters are digits. -/
def Obligations.HexCharacters : Prop :=
  (∀ v : Nibble, (hexChar v).toNat = if v.toNat ≤ 9 then 0x30 + v.toNat else 0x61 + (v.toNat - 10)) ∧
  (∀ (p : Params) (c : Byte), isHex p c = true ↔ hexSet p c) ∧
  (∀ (p : Params) (c : Byte), hexSet p c → (hexVal p c).map BitVec.toNat = some (digitOf c))

/-- 42_cipher.md R145: ETRN's checks, each a code and no other effect. -/
def Obligations.EtrnChecksTheWholeMessage : Prop :=
  (∀ s : State, s.eng.valid = false → exec .etrn s = .next { s with err := .notReady, errSeen := true }) ∧
  (∀ s : State, s.eng.valid = true → 256 < s.msglen.toNat →
    exec .etrn s = .next { s with err := .range, errSeen := true }) ∧
  (∀ s : State, s.eng.valid = true → s.msglen.toNat < 2 →
    exec .etrn s = .next { s with err := .format, errSeen := true }) ∧
  (∀ (s : State) (k : Nat), s.eng.valid = true → s.msglen.toNat ≤ 256 → 2 ≤ k → k < s.msglen.toNat →
    ¬ hexSet s.params (s.msgIn k) → exec .etrn s = .next { s with err := .format, errSeen := true }) ∧
  (∀ s : State, s.eng.valid = true → ValidMessage s → ∃ t, exec .etrn s = .next t ∧ t.err = .none)

/-- 42_cipher.md R146: what ETRN writes to MSGOUT, character by character, from the keystream that starts with carry 0,
and that it changes nothing else but the combiner and RESULT. -/
def Obligations.EtrnTransformsTheMessage : Prop :=
  (∀ w : Word, decode w = .ok .etrn ↔ w = 0x0000000C) ∧
  ∀ s : State, s.eng.valid = true → ValidMessage s →
    let L := s.msglen.toNat
    let e := { s.eng with carry := false }
    let o := fun j => (digitOf (s.msgIn (2 + 2 * j)) * 16 + digitOf (s.msgIn (3 + 2 * j))) ^^^ (ksAt s.params e j).toNat
    ∃ t, exec .etrn s = .next t ∧
      t = { s with
        buf := t.buf
        eng := ksAfter s.params e ((L - 1) / 2)
        result := BitVec.ofNat 32 L
        err := .none } ∧
      (∀ a, (a < 0x200 ∨ 0x200 + L ≤ a) → t.readByte a = s.readByte a) ∧
      t.msgOut 0 = s.msgIn 0 ∧ t.msgOut 1 = s.msgIn 1 ∧
      (∀ j, 3 + 2 * j < L →
        t.msgOut (2 + 2 * j) = hexChar (BitVec.ofNat 4 (o j / 16)) ∧
        t.msgOut (3 + 2 * j) = hexChar (BitVec.ofNat 4 (o j % 16))) ∧
      (L % 2 = 1 →
        t.msgOut (L - 1) = hexChar (BitVec.ofNat 4
          (digitOf (s.msgIn (L - 1)) ^^^ (ksAt s.params e ((L - 3) / 2)).toNat / 16)))

/-- 41_combiner.md R131: the keystream does not depend on the plaintext: two blocks with the same parameters and
combiner, given messages of one length, end with the same combiner, and input XOR output is the same at every digit. -/
def Obligations.KeystreamIgnoresThePlaintext : Prop :=
  ∀ s₁ s₂ : State, s₁.params = s₂.params → s₁.eng = s₂.eng → s₁.eng.valid = true →
    s₁.msglen = s₂.msglen → ValidMessage s₁ → ValidMessage s₂ →
    ∃ t₁ t₂, exec .etrn s₁ = .next t₁ ∧ exec .etrn s₂ = .next t₂ ∧ t₁.eng = t₂.eng ∧
      ∀ k, 2 ≤ k → k < s₁.msglen.toNat →
        digitOf (s₁.msgIn k) ^^^ digitOf (t₁.msgOut k) = digitOf (s₂.msgIn k) ^^^ digitOf (t₂.msgOut k)

/-- 41_combiner.md R131: two blocks loaded with the same seed, given the same commands, produce identical results: here
the commands whose operands are in their words. -/
def Obligations.SameSeedSameResults : Prop :=
  ∀ (cs : List Instr) (s₁ s₂ : State),
    (∀ i ∈ cs, i = .erst ∨ i = .eksr ∨ i = .eksb ∨ i = .ebeg ∨ (∃ d, i = .exb d) ∨ ∃ d, i = .exn d) →
    s₁.params = s₂.params → s₁.eseedHi = s₂.eseedHi → s₁.eseedLo = s₂.eseedLo → s₁.result = s₂.result →
    ∃ t₁ t₂ rs, execAll (.eload 40 :: cs) s₁ = some (t₁, rs) ∧ execAll (.eload 40 :: cs) s₂ = some (t₂, rs) ∧
      t₁.eng = t₂.eng ∧ t₁.result = t₂.result

/-- 42_cipher.md R147: ETRN is EBEG followed by an EXB for each pair and an EXN for an odd tail. -/
def Obligations.EtrnIsAByteCommandRun : Prop :=
  ∀ s : State, s.eng.valid = true → ValidMessage s →
    ∃ t u rs, exec .etrn s = .next t ∧
      execAll (.ebeg :: digitCommands (digitsOf s)) s = some (u, rs) ∧
      t.eng.s17 = u.eng.s17 ∧ t.eng.s25 = u.eng.s25 ∧ t.eng.carry = u.eng.carry ∧
      ∀ k, 2 ≤ k → k < s.msglen.toNat →
        (resultDigits (digitCommands (digitsOf s)) rs.tail)[k - 2]? = some (t.msgOut k)

/-- 42_cipher.md R148: the round trip. From the state that ERST or ELOAD leaves, ETRN twice with ERST, or ELOAD of the
same seed, between returns the message, upper-case digits in lower case. -/
def Obligations.RoundTripReturnsTheMessage : Prop :=
  ∀ (s : State) (restore : Instr), s.eng.valid = true → ValidMessage s →
    s.eng.s17 = s.eng.i17 → s.eng.s25 = s.eng.i25 →
    (restore = .erst ∨
      (restore = .eload 40 ∧ init17 (seed40 s) = s.eng.i17 ∧ init25 (seed40 s) = s.eng.i25)) →
    ∃ t u, exec .etrn s = .next t ∧ exec restore t = .next u ∧
      ∀ v : State, v.params = u.params → v.eng = u.eng → v.msglen = s.msglen →
        (∀ k, k < s.msglen.toNat → v.msgIn k = u.msgOut k) →
        ∃ x, exec .etrn v = .next x ∧
          x.msgOut 0 = s.msgIn 0 ∧ x.msgOut 1 = s.msgIn 1 ∧
          (∀ k, 2 ≤ k → k < s.msglen.toNat →
            x.msgOut k = hexChar (BitVec.ofNat 4 (digitOf (s.msgIn k)))) ∧
          ((∀ k, 2 ≤ k → k < s.msglen.toNat → lowercaseDigit (s.msgIn k)) →
            ∀ k, k < s.msglen.toNat → x.msgOut k = s.msgIn k)
end

