-- ==== Sys2Proof/Laws/State.lean ====
section
/-! SUPPORT. One lemma per field per named update of the state. -/

namespace Sys2Proof.Machine

/-! ## `State.writeByte` -/

@[simp] theorem State.writeByte_buf (s : State) (a : Nat) (b : Byte) : (s.writeByte a b).buf = memStore s.buf a b := rfl
@[simp] theorem State.writeByte_params (s : State) (a : Nat) (b : Byte) : (s.writeByte a b).params = s.params := rfl
@[simp] theorem State.writeByte_gen (s : State) (a : Nat) (b : Byte) : (s.writeByte a b).gen = s.gen := rfl
@[simp] theorem State.writeByte_eng (s : State) (a : Nat) (b : Byte) : (s.writeByte a b).eng = s.eng := rfl
@[simp] theorem State.writeByte_err (s : State) (a : Nat) (b : Byte) : (s.writeByte a b).err = s.err := rfl
@[simp] theorem State.writeByte_errSeen (s : State) (a : Nat) (b : Byte) : (s.writeByte a b).errSeen = s.errSeen := rfl
@[simp] theorem State.writeByte_result (s : State) (a : Nat) (b : Byte) : (s.writeByte a b).result = s.result := rfl
@[simp] theorem State.writeByte_msglen (s : State) (a : Nat) (b : Byte) : (s.writeByte a b).msglen = s.msglen := rfl
@[simp] theorem State.writeByte_lseed (s : State) (a : Nat) (b : Byte) : (s.writeByte a b).lseed = s.lseed := rfl
@[simp] theorem State.writeByte_ltaps (s : State) (a : Nat) (b : Byte) : (s.writeByte a b).ltaps = s.ltaps := rfl
@[simp] theorem State.writeByte_eseedLo (s : State) (a : Nat) (b : Byte) : (s.writeByte a b).eseedLo = s.eseedLo := rfl
@[simp] theorem State.writeByte_eseedHi (s : State) (a : Nat) (b : Byte) : (s.writeByte a b).eseedHi = s.eseedHi := rfl
@[simp] theorem State.writeByte_resets (s : State) (a : Nat) (b : Byte) : (s.writeByte a b).resets = s.resets := rfl
@[simp] theorem State.writeByte_pending (s : State) (a : Nat) (b : Byte) : (s.writeByte a b).pending = s.pending := rfl
@[simp] theorem State.writeByte_reads (s : State) (a : Nat) (b : Byte) : (s.writeByte a b).reads = s.reads := rfl

/-! ## `State.writeBytes` -/

@[simp] theorem State.writeBytes_nil (s : State) (a : Nat) : s.writeBytes a [] = s := rfl
@[simp] theorem State.writeBytes_cons (s : State) (a : Nat) (b : Byte) (bs : List Byte) :
    s.writeBytes a (b :: bs) = (s.writeByte a b).writeBytes (a + 1) bs := rfl

/-- Writing buffer bytes changes the buffers only. -/
theorem State.writeBytes_eq (s : State) (a : Nat) (bs : List Byte) :
    s.writeBytes a bs = { s with buf := (s.writeBytes a bs).buf } := by
  induction bs generalizing s a with
  | nil => rfl
  | cons b bs ih =>
    rw [State.writeBytes_cons, ih]
    rfl

@[simp] theorem State.writeBytes_params (s : State) (a : Nat) (bs : List Byte) : (s.writeBytes a bs).params = s.params := by
  rw [State.writeBytes_eq]
@[simp] theorem State.writeBytes_gen (s : State) (a : Nat) (bs : List Byte) : (s.writeBytes a bs).gen = s.gen := by
  rw [State.writeBytes_eq]
@[simp] theorem State.writeBytes_eng (s : State) (a : Nat) (bs : List Byte) : (s.writeBytes a bs).eng = s.eng := by
  rw [State.writeBytes_eq]
@[simp] theorem State.writeBytes_err (s : State) (a : Nat) (bs : List Byte) : (s.writeBytes a bs).err = s.err := by
  rw [State.writeBytes_eq]
@[simp] theorem State.writeBytes_errSeen (s : State) (a : Nat) (bs : List Byte) : (s.writeBytes a bs).errSeen = s.errSeen := by
  rw [State.writeBytes_eq]
@[simp] theorem State.writeBytes_result (s : State) (a : Nat) (bs : List Byte) : (s.writeBytes a bs).result = s.result := by
  rw [State.writeBytes_eq]
@[simp] theorem State.writeBytes_msglen (s : State) (a : Nat) (bs : List Byte) : (s.writeBytes a bs).msglen = s.msglen := by
  rw [State.writeBytes_eq]
@[simp] theorem State.writeBytes_lseed (s : State) (a : Nat) (bs : List Byte) : (s.writeBytes a bs).lseed = s.lseed := by
  rw [State.writeBytes_eq]
@[simp] theorem State.writeBytes_ltaps (s : State) (a : Nat) (bs : List Byte) : (s.writeBytes a bs).ltaps = s.ltaps := by
  rw [State.writeBytes_eq]
@[simp] theorem State.writeBytes_eseedLo (s : State) (a : Nat) (bs : List Byte) : (s.writeBytes a bs).eseedLo = s.eseedLo := by
  rw [State.writeBytes_eq]
@[simp] theorem State.writeBytes_eseedHi (s : State) (a : Nat) (bs : List Byte) : (s.writeBytes a bs).eseedHi = s.eseedHi := by
  rw [State.writeBytes_eq]
@[simp] theorem State.writeBytes_resets (s : State) (a : Nat) (bs : List Byte) : (s.writeBytes a bs).resets = s.resets := by
  rw [State.writeBytes_eq]
@[simp] theorem State.writeBytes_pending (s : State) (a : Nat) (bs : List Byte) : (s.writeBytes a bs).pending = s.pending := by
  rw [State.writeBytes_eq]
@[simp] theorem State.writeBytes_reads (s : State) (a : Nat) (bs : List Byte) : (s.writeBytes a bs).reads = s.reads := by
  rw [State.writeBytes_eq]

/-! ## `State.writeWord` -/

@[simp] theorem State.writeWord_params (s : State) (a : Nat) (v : Word) : (s.writeWord a v).params = s.params := State.writeBytes_params _ _ _
@[simp] theorem State.writeWord_gen (s : State) (a : Nat) (v : Word) : (s.writeWord a v).gen = s.gen := State.writeBytes_gen _ _ _
@[simp] theorem State.writeWord_eng (s : State) (a : Nat) (v : Word) : (s.writeWord a v).eng = s.eng := State.writeBytes_eng _ _ _
@[simp] theorem State.writeWord_err (s : State) (a : Nat) (v : Word) : (s.writeWord a v).err = s.err := State.writeBytes_err _ _ _
@[simp] theorem State.writeWord_errSeen (s : State) (a : Nat) (v : Word) : (s.writeWord a v).errSeen = s.errSeen := State.writeBytes_errSeen _ _ _
@[simp] theorem State.writeWord_result (s : State) (a : Nat) (v : Word) : (s.writeWord a v).result = s.result := State.writeBytes_result _ _ _
@[simp] theorem State.writeWord_msglen (s : State) (a : Nat) (v : Word) : (s.writeWord a v).msglen = s.msglen := State.writeBytes_msglen _ _ _
@[simp] theorem State.writeWord_lseed (s : State) (a : Nat) (v : Word) : (s.writeWord a v).lseed = s.lseed := State.writeBytes_lseed _ _ _
@[simp] theorem State.writeWord_ltaps (s : State) (a : Nat) (v : Word) : (s.writeWord a v).ltaps = s.ltaps := State.writeBytes_ltaps _ _ _
@[simp] theorem State.writeWord_eseedLo (s : State) (a : Nat) (v : Word) : (s.writeWord a v).eseedLo = s.eseedLo := State.writeBytes_eseedLo _ _ _
@[simp] theorem State.writeWord_eseedHi (s : State) (a : Nat) (v : Word) : (s.writeWord a v).eseedHi = s.eseedHi := State.writeBytes_eseedHi _ _ _
@[simp] theorem State.writeWord_resets (s : State) (a : Nat) (v : Word) : (s.writeWord a v).resets = s.resets := State.writeBytes_resets _ _ _
@[simp] theorem State.writeWord_pending (s : State) (a : Nat) (v : Word) : (s.writeWord a v).pending = s.pending := State.writeBytes_pending _ _ _
@[simp] theorem State.writeWord_reads (s : State) (a : Nat) (v : Word) : (s.writeWord a v).reads = s.reads := State.writeBytes_reads _ _ _

/-! ## `blockReset` (R40, R181) -/

@[simp] theorem blockReset_params (s : State) : (blockReset s).params = s.params := rfl
@[simp] theorem blockReset_gen (s : State) : (blockReset s).gen = LfsrUnit.unconfigured := rfl
@[simp] theorem blockReset_eng (s : State) : (blockReset s).eng = Combiner.unconfigured := rfl
@[simp] theorem blockReset_err (s : State) : (blockReset s).err = .none := rfl
@[simp] theorem blockReset_errSeen (s : State) : (blockReset s).errSeen = false := rfl
@[simp] theorem blockReset_result (s : State) : (blockReset s).result = 0 := rfl
@[simp] theorem blockReset_msglen (s : State) : (blockReset s).msglen = 0 := rfl
@[simp] theorem blockReset_lseed (s : State) : (blockReset s).lseed = 0 := rfl
@[simp] theorem blockReset_ltaps (s : State) : (blockReset s).ltaps = 0 := rfl
@[simp] theorem blockReset_eseedLo (s : State) : (blockReset s).eseedLo = 0 := rfl
@[simp] theorem blockReset_eseedHi (s : State) : (blockReset s).eseedHi = 0 := rfl
@[simp] theorem blockReset_buf (s : State) : (blockReset s).buf = [] := rfl
@[simp] theorem blockReset_resets (s : State) : (blockReset s).resets = s.resets + 1 := rfl
@[simp] theorem blockReset_pending (s : State) : (blockReset s).pending = s.pending := rfl
@[simp] theorem blockReset_reads (s : State) : (blockReset s).reads = s.reads := rfl

/-! ## `State.withFetchWord` -/

@[simp] theorem State.withFetchWord_pending (s : State) (n w : Nat) :
    (s.withFetchWord n w).pending = .write 0x000 4 (tableWord n w) :: s.pending := rfl
@[simp] theorem State.withFetchWord_params (s : State) (n w : Nat) : (s.withFetchWord n w).params = s.params := rfl
@[simp] theorem State.withFetchWord_gen (s : State) (n w : Nat) : (s.withFetchWord n w).gen = s.gen := rfl
@[simp] theorem State.withFetchWord_eng (s : State) (n w : Nat) : (s.withFetchWord n w).eng = s.eng := rfl
@[simp] theorem State.withFetchWord_err (s : State) (n w : Nat) : (s.withFetchWord n w).err = s.err := rfl
@[simp] theorem State.withFetchWord_errSeen (s : State) (n w : Nat) : (s.withFetchWord n w).errSeen = s.errSeen := rfl
@[simp] theorem State.withFetchWord_result (s : State) (n w : Nat) : (s.withFetchWord n w).result = s.result := rfl
@[simp] theorem State.withFetchWord_msglen (s : State) (n w : Nat) : (s.withFetchWord n w).msglen = s.msglen := rfl
@[simp] theorem State.withFetchWord_lseed (s : State) (n w : Nat) : (s.withFetchWord n w).lseed = s.lseed := rfl
@[simp] theorem State.withFetchWord_ltaps (s : State) (n w : Nat) : (s.withFetchWord n w).ltaps = s.ltaps := rfl
@[simp] theorem State.withFetchWord_eseedLo (s : State) (n w : Nat) : (s.withFetchWord n w).eseedLo = s.eseedLo := rfl
@[simp] theorem State.withFetchWord_eseedHi (s : State) (n w : Nat) : (s.withFetchWord n w).eseedHi = s.eseedHi := rfl
@[simp] theorem State.withFetchWord_resets (s : State) (n w : Nat) : (s.withFetchWord n w).resets = s.resets := rfl
@[simp] theorem State.withFetchWord_reads (s : State) (n w : Nat) : (s.withFetchWord n w).reads = s.reads := rfl
@[simp] theorem State.withFetchWord_buf (s : State) (n w : Nat) : (s.withFetchWord n w).buf = s.buf := rfl

end Sys2Proof.Machine
end

