-- ==== Sys2Proof/Laws/Memory.lean ====
section
/-! SUPPORT. The message buffers: a read after a write, the frame of a write, and the canonical form that every memory
operation keeps. -/

namespace Sys2Proof.Machine

/-! ## One cell -/

@[simp] theorem memLookup_nil (a : Nat) : memLookup [] a = none := rfl

/-- What a store leaves at every address. -/
theorem memLookup_memStore (m : Memory) (a : Nat) (b : Byte) (c : Nat) :
    memLookup (memStore m a b) c = if c = a then some b else memLookup m c := by
  induction m with
  | nil => simp [memStore, memLookup]
  | cons x m ih =>
    obtain ⟨k, v⟩ := x
    simp only [memStore]
    split_ifs with h₁ h₂ h₃ h₄ h₅ <;> simp_all [memLookup]

@[simp] theorem memLookup_memStore_same (m : Memory) (a : Nat) (b : Byte) :
    memLookup (memStore m a b) a = some b := by
  rw [memLookup_memStore, if_pos rfl]

theorem memLookup_memStore_other (m : Memory) {a c : Nat} (b : Byte) (h : c ≠ a) :
    memLookup (memStore m a b) c = memLookup m c := by
  rw [memLookup_memStore, if_neg h]

/-! ## The canonical form -/

theorem risesFrom_cons (lo k : Nat) (v : Byte) (m : Memory) :
    Memory.risesFrom lo ((k, v) :: m) = true ↔ lo ≤ k ∧ k < 0x300 ∧ Memory.risesFrom (k + 1) m = true := by
  simp [Memory.risesFrom, and_assoc]

/-- A store inside the buffers keeps the cells rising. -/
theorem memStore_risesFrom {m : Memory} {lo a : Nat} (b : Byte) (hm : Memory.risesFrom lo m = true)
    (hlo : lo ≤ a) (ha : a < 0x300) : Memory.risesFrom lo (memStore m a b) = true := by
  induction m generalizing lo with
  | nil => simp [memStore, Memory.risesFrom, hlo, ha]
  | cons x m ih =>
    obtain ⟨k, v⟩ := x
    obtain ⟨h₁, h₂, h₃⟩ := (risesFrom_cons lo k v m).1 hm
    simp only [memStore]
    split_ifs with h₄ h₅
    · exact (risesFrom_cons _ _ _ _).2 ⟨hlo, ha, (risesFrom_cons _ _ _ _).2 ⟨h₄, h₂, h₃⟩⟩
    · subst h₅
      exact (risesFrom_cons _ _ _ _).2 ⟨h₁, h₂, h₃⟩
    · exact (risesFrom_cons _ _ _ _).2 ⟨h₁, h₂, ih h₃ (by omega)⟩

theorem memStore_wf {m : Memory} {a : Nat} (b : Byte) (hm : m.wf = true) (h₁ : 0x100 ≤ a) (h₂ : a < 0x300) :
    (memStore m a b).wf = true :=
  memStore_risesFrom b hm h₁ h₂

theorem State.writeByte_wf {s : State} {a : Nat} (b : Byte) (hs : s.buf.wf = true) (h₁ : 0x100 ≤ a)
    (h₂ : a < 0x300) : (s.writeByte a b).buf.wf = true :=
  memStore_wf b hs h₁ h₂

theorem State.writeBytes_wf {s : State} {a : Nat} (bs : List Byte) (hs : s.buf.wf = true) (h₁ : 0x100 ≤ a)
    (h₂ : a + bs.length ≤ 0x300) : (s.writeBytes a bs).buf.wf = true := by
  induction bs generalizing s a with
  | nil => exact hs
  | cons b bs ih =>
    rw [List.length_cons] at h₂
    exact ih (State.writeByte_wf b hs h₁ (by omega)) (by omega) (by omega)

theorem State.writeWord_wf {s : State} {a : Nat} (v : Word) (hs : s.buf.wf = true) (h₁ : 0x100 ≤ a)
    (h₂ : a + 4 ≤ 0x300) : (s.writeWord a v).buf.wf = true :=
  State.writeBytes_wf _ hs h₁ h₂

theorem blockReset_wf (s : State) : (blockReset s).buf.wf = true := rfl

theorem reset_wf : State.reset.buf.wf = true := rfl

/-! ## Bytes -/

/-- What writing one byte leaves at every address. -/
theorem State.readByte_writeByte (s : State) (a : Nat) (b : Byte) (c : Nat) :
    (s.writeByte a b).readByte c = if c = a then b else s.readByte c := by
  simp only [State.readByte, State.writeByte_buf, memLookup_memStore, State.writeByte_resets]
  split_ifs <;> rfl

/-- A byte depends on the buffers and the block-reset count only. -/
theorem State.readByte_congr {s t : State} (hb : t.buf = s.buf) (hr : t.resets = s.resets) (a : Nat) :
    t.readByte a = s.readByte a := by
  simp only [State.readByte, hb, hr]

/-- What writing a run of bytes leaves outside the run. -/
theorem State.readByte_writeBytes_outside (s : State) (a : Nat) (bs : List Byte) {c : Nat}
    (h : c < a ∨ a + bs.length ≤ c) : (s.writeBytes a bs).readByte c = s.readByte c := by
  induction bs generalizing s a with
  | nil => rfl
  | cons b bs ih =>
    simp only [List.length_cons] at h
    rw [State.writeBytes_cons, ih _ _ (by omega), State.readByte_writeByte, if_neg (by omega)]

/-- What writing a run of bytes leaves inside the run. -/
theorem State.readByte_writeBytes_inside (s : State) (a : Nat) (bs : List Byte) {j : Nat} (h : j < bs.length) :
    (s.writeBytes a bs).readByte (a + j) = bs[j] := by
  induction bs generalizing s a j with
  | nil => simp at h
  | cons b bs ih =>
    rw [State.writeBytes_cons]
    cases j with
    | zero =>
      rw [State.readByte_writeBytes_outside _ _ _ (by omega), State.readByte_writeByte]
      simp
    | succ j =>
      have := ih (s.writeByte a b) (a + 1) (j := j) (by simpa using h)
      rw [show a + (j + 1) = a + 1 + j by omega, this]
      rfl

@[simp] theorem State.readBytes_length (s : State) (a n : Nat) : (s.readBytes a n).length = n := by
  induction n generalizing a with
  | zero => rfl
  | succ n ih => simp [State.readBytes, ih]

/-- The bytes of a run that is read. -/
theorem State.readBytes_getElem (s : State) (a n : Nat) {j : Nat} (h : j < (s.readBytes a n).length) :
    (s.readBytes a n)[j] = s.readByte (a + j) := by
  induction n generalizing a j with
  | zero => simp [State.readBytes] at h
  | succ n ih =>
    cases j with
    | zero => rfl
    | succ j =>
      simp only [State.readBytes, List.getElem_cons_succ, ih]
      congr 1
      omega

end Sys2Proof.Machine
end

