-- ==== Sys2Proof/Laws/Ops.lean ====
section
/-! SUPPORT. What each shared operation can do, said once: how a command ends, the configured check, the bus, the
drawing of bits and keystream bytes, the digits of a message. -/

namespace Sys2Proof.Machine

/-! ## How a command ends (R163, R164) -/

@[simp] theorem raiseError_next_iff (c : ErrCode) (s t : State) :
    raiseError c s = .next t ↔ t = { s with err := c, errSeen := true } := by
  simp [raiseError, eq_comm]

@[simp] theorem succeed_next_iff (s t : State) : succeed s = .next t ↔ t = { s with err := .none } := by
  simp [succeed, eq_comm]

@[simp] theorem whenReady_true (s : State) (body : Answer) : whenReady true s body = body := rfl

@[simp] theorem whenReady_false (s : State) (body : Answer) :
    whenReady false s body = raiseError .notReady s := rfl

/-- All that the configured check can do. -/
theorem whenReady_next_iff (v : Bool) (s t : State) (body : Answer) :
    whenReady v s body = .next t ↔
      (v = true ∧ body = .next t) ∨ (v = false ∧ t = { s with err := .notReady, errSeen := true }) := by
  cases v <;> simp

/-! ## Decoding (R74) -/

/-- All that one row of the table can answer. -/
theorem rowOf_ok_iff (mask pattern w : Word) (i j : Instr) :
    rowOf mask pattern w i = .ok j ↔ w &&& mask = pattern ∧ i = j := by
  unfold rowOf
  split_ifs with h <;> simp [h]

theorem rowOf_error_iff (mask pattern w : Word) (i : Instr) (r : DecodeReject) :
    rowOf mask pattern w i = .error r ↔ w &&& mask ≠ pattern ∧ r = .unusedBitSet := by
  unfold rowOf
  split_ifs with h <;> simp [h, eq_comm]

/-! ## The bus (R51 to R54) -/

theorem busAccepts_iff (a : BusAddr) (n : Nat) :
    busAccepts a n = true ↔ n = 4 ∧ a.toNat % 4 = 0 ∧ busTarget a ≠ .reserved := by
  simp [busAccepts, and_assoc]

/-- Which addresses are reserved (R51). -/
theorem busTarget_reserved_iff (a : BusAddr) :
    busTarget a = .reserved ↔ 0x020 ≤ a.toNat ∧ a.toNat < 0x100 ∨ 0x300 ≤ a.toNat := by
  unfold busTarget
  split_ifs with h₁ h₂ h₃ h₄
  · split <;> simp <;> omega
  · simp; omega
  · simp; omega
  · simp; omega
  · simp; omega

/-- A write that is no command leaves the block's units and STATUS alone. -/
theorem writeTarget_done {x : HostAccess} {s t : State} {a : BusAddr} {v : Word}
    (h : writeTarget x s a v = .done t) :
    t.gen = s.gen ∧ t.eng = s.eng ∧ t.err = s.err ∧ t.errSeen = s.errSeen ∧ t.result = s.result ∧
      t.params = s.params ∧ t.resets = s.resets ∧ t.pending = s.pending ∧ t.reads = s.reads := by
  unfold writeTarget at h
  split at h <;> simp only [BusCycle.done.injEq, reduceCtorEq] at h <;> subst h <;> simp

/-- A bus write is a command only at CMD, and the state is then untouched. -/
theorem writeTarget_command {x : HostAccess} {s t : State} {a : BusAddr} {v w : Word}
    (h : writeTarget x s a v = .command w t) : busTarget a = .cmd ∧ w = v ∧ t = s := by
  unfold writeTarget at h
  split at h <;> simp only [reduceCtorEq, BusCycle.command.injEq] at h
  exact ⟨by assumption, h.1.symm, h.2.symm⟩

/-! ## Drawing bits (R100, R104, R123) -/

@[simp] theorem lfsrDraw_zero {w : Nat} (m : Nat) (S T : BitVec w) (N : Nat) : lfsrDraw m S T N 0 = (S, 0) := rfl

theorem lfsrDraw_succ {w : Nat} (m : Nat) (S T : BitVec w) (N k : Nat) :
    lfsrDraw m S T N (k + 1) =
      ((lfsrStep (lfsrDraw m S T N k).1 T N).1,
        (lfsrDraw m S T N k).2 |||
          ((BitVec.ofBool (lfsrStep (lfsrDraw m S T N k).1 T N).2).setWidth m <<< k)) := rfl

/-! ## Keystream bytes (R123 to R125) -/

theorem ksRaw_eq (p : Params) (e : Combiner) :
    ksRaw p e =
      ({ e with
          s17 := (lfsrDraw 8 e.s17 (t17 p.tapIndexing) 17 8).1
          s25 := (lfsrDraw 8 e.s25 (t25 p.tapIndexing) 25 8).1 },
        (lfsrDraw 8 e.s17 (t17 p.tapIndexing) 17 8).2.toNat +
          (lfsrDraw 8 e.s25 (t25 p.tapIndexing) 25 8).2.toNat) := rfl

theorem ksByte_eq (p : Params) (e : Combiner) :
    ksByte p e =
      ({ (ksRaw p e).1 with carry := carryNext p.carryRule (ksRaw p e).2 },
        reduceKs (ksRaw p e).2 e.carry) := rfl

@[simp] theorem ksRaw_i17 (p : Params) (e : Combiner) : (ksRaw p e).1.i17 = e.i17 := rfl
@[simp] theorem ksRaw_i25 (p : Params) (e : Combiner) : (ksRaw p e).1.i25 = e.i25 := rfl
@[simp] theorem ksRaw_carry (p : Params) (e : Combiner) : (ksRaw p e).1.carry = e.carry := rfl
@[simp] theorem ksRaw_valid (p : Params) (e : Combiner) : (ksRaw p e).1.valid = e.valid := rfl
@[simp] theorem ksByte_i17 (p : Params) (e : Combiner) : (ksByte p e).1.i17 = e.i17 := rfl
@[simp] theorem ksByte_i25 (p : Params) (e : Combiner) : (ksByte p e).1.i25 = e.i25 := rfl
@[simp] theorem ksByte_valid (p : Params) (e : Combiner) : (ksByte p e).1.valid = e.valid := rfl

/-! ## The digits of a message (R143 to R146) -/

theorem hexVals_cons (p : Params) (c : Byte) (cs : List Byte) :
    hexVals p (c :: cs) = (hexVal p c).bind fun v => (hexVals p cs).map (v :: ·) := by
  simp only [hexVals]
  cases hexVal p c <;> cases hexVals p cs <;> rfl

theorem hexVals_length {p : Params} {cs : List Byte} {vs : List Nibble} (h : hexVals p cs = some vs) :
    vs.length = cs.length := by
  induction cs generalizing vs with
  | nil => simp [hexVals] at h; simp [← h]
  | cons c cs ih =>
    rw [hexVals_cons, Option.bind_eq_some_iff] at h
    obtain ⟨v, -, h⟩ := h
    obtain ⟨us, h₁, rfl⟩ := Option.map_eq_some_iff.1 h
    simp [ih h₁]

/-- A string has digit values exactly when each of its characters is a hex digit. -/
theorem hexVals_isSome_iff (p : Params) (cs : List Byte) :
    (hexVals p cs).isSome = true ↔ ∀ c ∈ cs, isHex p c = true := by
  induction cs with
  | nil => simp [hexVals]
  | cons c cs ih =>
    rw [hexVals_cons]
    cases h : hexVal p c <;> simp [isHex, h, ih]

theorem transformNibbles_pair (p : Params) (e : Combiner) (h l : Nibble) (rest : List Nibble) :
    transformNibbles p e (h :: l :: rest) =
      ((transformNibbles p (ksByte p e).1 rest).1,
        highNibble ((h ++ l : Byte) ^^^ (ksByte p e).2) :: lowNibble ((h ++ l : Byte) ^^^ (ksByte p e).2) ::
          (transformNibbles p (ksByte p e).1 rest).2) := rfl

/-- A message keeps its length, and the combiner its seeds. -/
theorem transformNibbles_frame (p : Params) :
    ∀ (e : Combiner) (ds : List Nibble),
      (transformNibbles p e ds).2.length = ds.length ∧ (transformNibbles p e ds).1.i17 = e.i17 ∧
        (transformNibbles p e ds).1.i25 = e.i25 ∧ (transformNibbles p e ds).1.valid = e.valid
  | _, [] => ⟨rfl, rfl, rfl, rfl⟩
  | _, [_] => ⟨rfl, rfl, rfl, rfl⟩
  | e, h :: l :: rest => by
    obtain ⟨h₁, h₂, h₃, h₄⟩ := transformNibbles_frame p (ksByte p e).1 rest
    rw [transformNibbles_pair]
    exact ⟨by simpa using h₁, by simpa using h₂, by simpa using h₃, by simpa using h₄⟩

/-- The digit of a nibble reads back as the nibble (R142, R143). -/
theorem hexVal_hexChar (p : Params) (v : Nibble) : hexVal p (hexChar v) = some v := by
  obtain ⟨t, c, u⟩ := p
  revert v
  cases t <;> cases c <;> cases u <;> decide +kernel

end Sys2Proof.Machine
end

