-- ==== Sys2Proof/Laws/Exec.lean ====
section
/-! SUPPORT. What each command and the step can do, said once: equations without pair matches, and the cases of a next
state. -/

namespace Sys2Proof.Machine

/-! ## Equations -/

theorem execLnxt_eq (s : State) :
    execLnxt s = whenReady s.gen.valid s (succeed
      { s with
        gen := { s.gen with state := (lfsrStep s.gen.state s.gen.taps s.gen.n.toNat).1 }
        result := (BitVec.ofBool (lfsrStep s.gen.state s.gen.taps s.gen.n.toNat).2).setWidth 32 }) := rfl

theorem execLseq_eq (k : BitVec 6) (s : State) :
    execLseq k s = whenReady s.gen.valid s
      (if lseqMax < k.toNat then raiseError .range s
       else succeed
        { s with
          gen := { s.gen with state := (lfsrDraw 32 s.gen.state s.gen.taps s.gen.n.toNat k.toNat).1 }
          result := (lfsrDraw 32 s.gen.state s.gen.taps s.gen.n.toNat k.toNat).2 }) := rfl

theorem execEksr_eq (s : State) :
    execEksr s = whenReady s.eng.valid s (succeed
      { s with eng := (ksRaw s.params s.eng).1, result := BitVec.ofNat 32 (ksRaw s.params s.eng).2 }) := rfl

theorem execEksb_eq (s : State) :
    execEksb s = whenReady s.eng.valid s (succeed
      { s with eng := (ksByte s.params s.eng).1, result := (ksByte s.params s.eng).2.setWidth 32 }) := rfl

theorem execExb_eq (p : Byte) (s : State) :
    execExb p s = whenReady s.eng.valid s (succeed
      { s with
        eng := (ksByte s.params s.eng).1
        result := (p ^^^ (ksByte s.params s.eng).2).setWidth 32 }) := rfl

theorem execExn_eq (d : Byte) (s : State) :
    execExn d s = whenReady s.eng.valid s (succeed
      { s with
        eng := (ksByte s.params s.eng).1
        result := (exnNibble d ^^^ highNibble (ksByte s.params s.eng).2).setWidth 32 }) := rfl

/-! ## ETRN (R145, R146) -/

/-- What ETRN leaves when the digits after the marker are `ds`. -/
def etrnDone (s : State) (ds : List Nibble) : State :=
  { s.writeBytes (msgOutAddr 0)
      (s.msgIn 0 :: s.msgIn 1 ::
        (transformNibbles s.params { s.eng with carry := false } ds).2.map hexChar) with
    eng := (transformNibbles s.params { s.eng with carry := false } ds).1
    result := s.msglen.setWidth 32
    err := .none }

theorem execEtrn_eq (s : State) :
    execEtrn s = whenReady s.eng.valid s
      (if msgMax < s.msglen.toNat then raiseError .range s
       else if s.msglen.toNat < markerLen then raiseError .format s
       else
        match hexVals s.params s.msgBody with
        | none => raiseError .format s
        | some ds => .next (etrnDone s ds)) := rfl

/-- All that ETRN can do. -/
theorem execEtrn_next {s t : State} (h : execEtrn s = .next t) :
    (∃ c, (c = .notReady ∨ c = .range ∨ c = .format) ∧ t = { s with err := c, errSeen := true }) ∨
      ∃ ds, s.eng.valid = true ∧ 2 ≤ s.msglen.toNat ∧ s.msglen.toNat ≤ 256 ∧
        hexVals s.params s.msgBody = some ds ∧ ds.length = s.msglen.toNat - 2 ∧ t = etrnDone s ds := by
  rw [execEtrn_eq, whenReady_next_iff] at h
  obtain ⟨hv, h⟩ | ⟨-, rfl⟩ := h
  · split_ifs at h with h₁ h₂
    · exact .inl ⟨.range, by simp, (raiseError_next_iff _ _ _).1 h⟩
    · exact .inl ⟨.format, by simp, (raiseError_next_iff _ _ _).1 h⟩
    · cases hd : hexVals s.params s.msgBody with
      | none =>
        rw [hd] at h
        exact .inl ⟨.format, by simp, (raiseError_next_iff _ _ _).1 h⟩
      | some ds =>
        rw [hd] at h
        simp only [Host.Outcome.next.injEq] at h
        refine .inr ⟨ds, hv, ?_, ?_, rfl, ?_, h.symm⟩
        · unfold markerLen at h₂; omega
        · unfold msgMax at h₁; omega
        · rw [hexVals_length hd, State.msgBody, State.readBytes_length, markerLen]
  · exact .inl ⟨.notReady, by simp, rfl⟩

/-! ## The step -/

/-- All that a step to a next state can be: idle, an access that is no command, a command, or an illegal word. -/
theorem step_next {s t : State} (h : step s = .next t) :
    (s.pending = [] ∧ t = s) ∨
      ∃ x rest, s.pending = x :: rest ∧
        (busAccess { s with pending := rest } x = .done t ∨
          ∃ w u, busAccess { s with pending := rest } x = .command w u ∧
            ((∃ i, decode w = .ok i ∧ exec i u = .next t) ∨
              (∃ r, decode w = .error r ∧ t = { u with err := .illegal, errSeen := true }))) := by
  unfold step nextCycle at h
  cases hp : s.pending with
  | nil =>
    rw [hp] at h
    exact .inl ⟨rfl, by simpa using h.symm⟩
  | cons x rest =>
    rw [hp] at h
    refine .inr ⟨x, rest, rfl, ?_⟩
    cases hb : busAccess { s with pending := rest } x with
    | done u => simp only [hb, Host.Outcome.next.injEq] at h; exact .inl (by rw [h])
    | error y => simp [hb] at h
    | command w u =>
      refine .inr ⟨w, u, rfl, ?_⟩
      simp only [hb] at h
      cases hd : decode w with
      | ok i => exact .inl ⟨i, rfl, by simpa [hd] using h⟩
      | error r => exact .inr ⟨r, rfl, by simpa [hd] using h⟩

/-- A write of a command word at CMD. -/
theorem step_command (s : State) (w : Word) (rest : List HostAccess) :
    step { s with pending := .write 0x000 4 w :: rest } =
      match decode w with
      | .ok i => exec i { s with pending := rest }
      | .error _ => raiseError .illegal { s with pending := rest } := rfl

end Sys2Proof.Machine
end

