-- ==== Sys2Proof/Laws/PerInstr.lean ====
section
/-! SUPPORT. Facts about every command as syntax, one lemma per constructor. -/

namespace Sys2Proof.Laws

/-- The fields of a word built from fields (R71). -/
theorem assembleFields_fields (op : BitVec 4) (a b : BitVec 6) (d : Byte) :
    fieldOp (assembleFields op a b d) = op ∧ (assembleFields op a b d).extractLsb' 24 8 = 0 := by
  refine ⟨BitVec.eq_of_getLsbD_eq fun i hi => ?_, BitVec.eq_of_getLsbD_eq fun i hi => ?_⟩
  · simp only [fieldOp, assembleFields, BitVec.getLsbD_extractLsb', BitVec.getLsbD_or, BitVec.getLsbD_setWidth,
      BitVec.getLsbD_shiftLeft]
    have h₁ : 0 + i < 4 := by omega
    have h₂ : 0 + i < 10 := by omega
    have h₃ : 0 + i < 16 := by omega
    simp [hi, show i < 32 by omega, show i < 10 by omega, show i < 16 by omega]
  · simp only [assembleFields, BitVec.getLsbD_extractLsb', BitVec.getLsbD_or, BitVec.getLsbD_setWidth,
      BitVec.getLsbD_shiftLeft]
    simp [hi, show ¬ 24 + i < 16 by omega, BitVec.getLsbD_of_ge op (24 + i) (by omega),
      BitVec.getLsbD_of_ge a (24 + i - 4) (by omega), BitVec.getLsbD_of_ge b (24 + i - 10) (by omega),
      BitVec.getLsbD_of_ge d (24 + i - 16) (by omega)]

/-- The opcode of R73. -/
def opcode : Instr → BitVec 4
  | .lcfg _ _ => 0x1
  | .lrst => 0x2
  | .lnxt => 0x3
  | .lseq _ => 0x4
  | .eload _ => 0x5
  | .erst => 0x6
  | .eksr => 0x7
  | .eksb => 0x8
  | .ebeg => 0x9
  | .exb _ => 0xA
  | .exn _ => 0xB
  | .etrn => 0xC

/-- The word of a command carries its opcode of R73, and its reserved field R is 0 (R71). -/
def OpcodeInWord.Statement (i : Instr) : Prop :=
  fieldOp (encode i) = opcode i ∧ (encode i).extractLsb' 24 8 = 0

theorem OpcodeInWord.lcfg (a b : BitVec 6) : OpcodeInWord.Statement (.lcfg a b) := assembleFields_fields _ _ _ _
theorem OpcodeInWord.lrst : OpcodeInWord.Statement .lrst := assembleFields_fields _ _ _ _
theorem OpcodeInWord.lnxt : OpcodeInWord.Statement .lnxt := assembleFields_fields _ _ _ _
theorem OpcodeInWord.lseq (a : BitVec 6) : OpcodeInWord.Statement (.lseq a) := assembleFields_fields _ _ _ _
theorem OpcodeInWord.eload (a : BitVec 6) : OpcodeInWord.Statement (.eload a) := assembleFields_fields _ _ _ _
theorem OpcodeInWord.erst : OpcodeInWord.Statement .erst := assembleFields_fields _ _ _ _
theorem OpcodeInWord.eksr : OpcodeInWord.Statement .eksr := assembleFields_fields _ _ _ _
theorem OpcodeInWord.eksb : OpcodeInWord.Statement .eksb := assembleFields_fields _ _ _ _
theorem OpcodeInWord.ebeg : OpcodeInWord.Statement .ebeg := assembleFields_fields _ _ _ _
theorem OpcodeInWord.exb (d : Byte) : OpcodeInWord.Statement (.exb d) := assembleFields_fields _ _ _ _
theorem OpcodeInWord.exn (d : Byte) : OpcodeInWord.Statement (.exn d) := assembleFields_fields _ _ _ _
theorem OpcodeInWord.etrn : OpcodeInWord.Statement .etrn := assembleFields_fields _ _ _ _

end Sys2Proof.Laws
end

