-- ==== Sys2Proof/Machine/HostProgram.lean ====
section
/-! DEFINITION. The host's program text: the lines of 30_encoding.md R79 and the pseudo-instructions of R80, and the
sequence of accesses each stands for. -/

namespace Sys2Proof.Machine

/-- A line of a host program. -/
inductive ProgLine where
  /-- `WR addr, value` -/
  | wr (addr : BusAddr) (v : Word)
  /-- `RD addr` or `RD addr -> expected` -/
  | rd (addr : BusAddr) (expected : Option Word)
  /-- `RST` -/
  | rst
  /-- A command mnemonic with its operands. -/
  | command (i : Instr)
  /-- `LCFG n` -/
  | lcfgSame (n : BitVec 6)
  /-- `ELOAD` -/
  | eload40
  /-- `LINIT n, seed, taps` -/
  | linit (n : BitVec 6) (seed taps : Word)
  /-- `EINIT seed40` -/
  | einit (seed : BitVec 40)
  /-- `MSG "text"` -/
  | msg (text : List Byte)
  /-- `CHECK` -/
  | check
  deriving DecidableEq, Repr

/-- The register names of R51 that the lines use. -/
def addrCmd : BusAddr := 0x000
def addrStatus : BusAddr := 0x004
def addrMsglen : BusAddr := 0x00C
def addrLseed : BusAddr := 0x010
def addrLtaps : BusAddr := 0x014
def addrEseedLo : BusAddr := 0x018
def addrEseedHi : BusAddr := 0x01C
def addrMsgIn : BusAddr := 0x100

/-- `MemWrite(addr, 4, v)` (R11, R79). -/
def memWrite (a : BusAddr) (v : Word) : HostAccess := .write a 4 v

/-- A command line is exactly `WR CMD, word` (R79). -/
def commandWrite (i : Instr) : HostAccess := memWrite addrCmd (encode i)

/-- The bytes of a text as words in little-endian lanes, padded with 0x00 (R80, R56). -/
def textWords : List Byte → List Word
  | [] => []
  | [b₀] => [b₀.setWidth 32]
  | [b₀, b₁] => [(b₁ ++ b₀ : BitVec 16).setWidth 32]
  | [b₀, b₁, b₂] => [(b₂ ++ b₁ ++ b₀ : BitVec 24).setWidth 32]
  | b₀ :: b₁ :: b₂ :: b₃ :: rest => (b₃ ++ b₂ ++ b₁ ++ b₀ : BitVec 32) :: textWords rest

/-- The writes of successive words from an address on. -/
def wordWrites (a : BusAddr) : List Word → List HostAccess
  | [] => []
  | v :: vs => memWrite a v :: wordWrites (a + 4) vs

/-- The accesses a line stands for (R79, R80). -/
def ProgLine.expand : ProgLine → List HostAccess
  | .wr a v => [memWrite a v]
  | .rd a _ => [.read a 4]
  | .rst => [.reset]
  | .command i => [commandWrite i]
  | .lcfgSame n => [commandWrite (.lcfg n n)]
  | .eload40 => [commandWrite (.eload 40)]
  | .linit n seed taps => [memWrite addrLseed seed, memWrite addrLtaps taps, commandWrite (.lcfg n n)]
  | .einit seed =>
    [memWrite addrEseedLo (seed.extractLsb' 0 32), memWrite addrEseedHi (seed.extractLsb' 32 8 |>.setWidth 32),
      commandWrite (.eload 40)]
  | .msg text => wordWrites addrMsgIn (textWords text) ++ [memWrite addrMsglen (BitVec.ofNat 32 text.length)]
  | .check => [.read addrStatus 4]

/-- What a line says of the word it reads, as a mask and a value under it: `RD addr -> expected` gives the whole word,
`CHECK` says ERR = 0. It is a note of the program's writer and changes nothing (log entry 14). -/
def ProgLine.expects : ProgLine → Option (Word × Word)
  | .rd _ (some v) => some (0xFFFFFFFF, v)
  | .check => some (0x0000000F, 0)
  | _ => none

/-- The accesses of a program, in order (R79). -/
def assemble : List ProgLine → List HostAccess
  | [] => []
  | l :: ls => l.expand ++ assemble ls

/-- A block in front of which the host holds this program. -/
def State.withProgram (s : State) (p : List ProgLine) : State := { s with pending := assemble p }

end Sys2Proof.Machine
end

