-- ==== Sys2Proof/Tests/Slice0.lean ====
section
/-! SUPPORT. The model's own tests: values from the vectors of 95_test_vectors.md and the examples of the command rules,
and for every statement with hypotheses a concrete case that meets them. -/

namespace Sys2Proof.Tests

open Sys2Proof Sys2Proof.Machine

/-! ## Helpers -/

/-- The outcome is a next state with this property. -/
def nextIs (o : Host.Outcome State Fault Refusal) (p : State → Bool) : Bool :=
  match o with
  | .next t => p t
  | .fault _ => false
  | .refused _ => false

/-- A block whose generic unit is configured (rule R101). -/
def lfsrBlock (n : BitVec 6) (state taps init : Word) : State :=
  { State.reset with gen := { n := n, state := state, taps := taps, init := init, valid := true } }

/-- A block whose combiner was just loaded with a seed and whose MSGIN holds a message. -/
def cipherBlock (seed : BitVec 40) (text : List Byte) : State :=
  { State.reset.writeBytes 0x100 text with eng := Combiner.ofSeed seed, msglen := BitVec.ofNat 16 text.length }

/-- `"0xabc"`, `"0xAB"` -/
def textAbc : List Byte := [0x30, 0x78, 0x61, 0x62, 0x63]
def textUpper : List Byte := [0x30, 0x78, 0x41, 0x42]

/-! ## Well-formedness -/

/-- R72: cmd[23:20] must be 0 in EXN. -/
theorem test_exn_with_high_nibble_is_ill_formed : (Instr.exn 0x1F).wf = false := by decide

/-! ## Decoding: words written out from the patterns of R74 -/

theorem test_decode_lcfg : decode 0b00000000000000000001000001000001 = .ok (.lcfg 4 4) := by decide
theorem test_decode_lcfg_apart : decode 0b00000000000000001000001111110001 = .ok (.lcfg 63 32) := by decide
theorem test_decode_lrst : decode 0b00000000000000000000000000000010 = .ok .lrst := by decide
theorem test_decode_lnxt : decode 0b00000000000000000000000000000011 = .ok .lnxt := by decide
theorem test_decode_lseq : decode 0b00000000000000000000001000010100 = .ok (.lseq 33) := by decide
theorem test_decode_eload : decode 0b00000000000000000000001010000101 = .ok (.eload 40) := by decide
theorem test_decode_erst : decode 0b00000000000000000000000000000110 = .ok .erst := by decide
theorem test_decode_eksr : decode 0b00000000000000000000000000000111 = .ok .eksr := by decide
theorem test_decode_eksb : decode 0b00000000000000000000000000001000 = .ok .eksb := by decide
theorem test_decode_ebeg : decode 0b00000000000000000000000000001001 = .ok .ebeg := by decide
theorem test_decode_exb : decode 0b00000000101010110000000000001010 = .ok (.exb 0xAB) := by decide
theorem test_decode_exn : decode 0b00000000000011000000000000001011 = .ok (.exn 0xC) := by decide
theorem test_decode_etrn : decode 0b00000000000000000000000000001100 = .ok .etrn := by decide

/-- V-E1. -/
theorem test_decode_rejects :
    decode 0x0000000E = .error .reservedOpcode ∧ decode 0x0000000F = .error .reservedOpcode ∧
      decode 0x00000403 = .error .unusedBitSet ∧ decode 0x00001004 = .error .unusedBitSet ∧
      decode 0x00011041 = .error .unusedBitSet := by decide

/-- R82. -/
theorem test_encode_words :
    encode (.lcfg 17 17) = 0x00004511 ∧ encode (.exb 0xFF) = 0x00FF000A ∧ encode (.eload 39) = 0x00000275 := by decide

/-! ## The generic unit -/

/-- V-L3: LSEED = 0xFFFFFFF8, LCFG 4, 4 ignores the upper bits. -/
theorem test_lcfg :
    nextIs (exec (.lcfg 4 4) { State.reset with lseed := 0xFFFFFFF8 })
      (fun t => t.gen == { n := 4, state := 0x8, taps := 0, init := 0x8, valid := true }) = true := by decide +kernel

/-- V-L3: LCFG 4, 5 is CONFIG and keeps the unit. -/
theorem test_lcfg_lengths_differ :
    nextIs (exec (.lcfg 4 5) (lfsrBlock 4 5 3 1))
      (fun t => t.err == .config && t.errSeen && t.gen == (lfsrBlock 4 5 3 1).gen) = true := by decide +kernel

/-- The example of R102. -/
theorem test_lrst : nextIs (exec .lrst (lfsrBlock 4 5 3 1)) (fun t => t.gen.state == 1 && t.gen.taps == 3) = true := by
  decide +kernel

/-- The example of R103. -/
theorem test_lnxt : nextIs (exec .lnxt (lfsrBlock 4 1 3 1)) (fun t => t.result == 1 && t.gen.state == 8) = true := by
  decide +kernel

/-- V-L1: feedback into bit 31. -/
theorem test_lnxt_longest :
    nextIs (exec .lnxt (lfsrBlock 32 1 0x80200003 1)) (fun t => t.gen.state == 0x80000000) = true := by decide +kernel

/-- V-L2. -/
theorem test_lseq :
    nextIs (exec (.lseq 32) (lfsrBlock 4 1 3 1)) (fun t => t.result == 0x7AC8F591 && t.gen.state == 4) = true := by
  decide +kernel

/-- V-L2: LSEQ 33 is RANGE. -/
theorem test_lseq_range :
    nextIs (exec (.lseq 33) (lfsrBlock 4 1 3 1)) (fun t => t.err == .range && t.gen.state == 1) = true := by
  decide +kernel

/-! ## The combiner -/

/-- The example of R121. -/
theorem test_eload :
    nextIs (exec (.eload 40) { State.reset with eseedHi := 0x01, eseedLo := 0x23456789 })
      (fun t => t.eng.i17 == 0x10123 && t.eng.i25 == 0x1456789 && t.eng.s17 == 0x10123) = true := by decide +kernel

/-- V-K5: ELOAD 39 is CONFIG. -/
theorem test_eload_wrong_length :
    nextIs (exec (.eload 39) State.reset) (fun t => t.err == .config && !t.eng.valid) = true := by decide +kernel

/-- V-K5: ERST after one byte of the all-ones seed. -/
theorem test_erst :
    nextIs (exec .erst { State.reset with eng := ksAfter .reference (Combiner.ofSeed 0xFFFFFFFFFF) 1 })
      (fun t => t.eng.s17 == 0x1FFFF && t.eng.s25 == 0x1FFFFFF && !t.eng.carry) = true := by decide +kernel

/-- The example of R126. -/
theorem test_eksr :
    nextIs (exec .eksr (cipherBlock 0xFFFFFFFFFF []))
      (fun t => t.result == 510 && t.eng.s17 == 0x071FF && t.eng.s25 == 0x001FFFF && !t.eng.carry) = true := by
  decide +kernel

/-- V-K2, byte 1: raw 510 with carry 1. -/
theorem test_eksb :
    nextIs (exec .eksb { State.reset with eng := ksAfter .reference (Combiner.ofSeed 0xFFFFFFFFFF) 1 })
      (fun t => t.result == 0xFF && t.eng.carry && t.eng.s17 == 0x11C71) = true := by decide +kernel

/-- V-K4, seed 0x88AE2EB154, byte 2: the sum wraps and the carry is 0. -/
theorem test_eksb_carry_excludes_carry_in :
    nextIs (exec .eksb { State.reset with eng := ksAfter .reference (Combiner.ofSeed 0x88AE2EB154) 2 })
      (fun t => t.result == 0x00 && !t.eng.carry) = true := by decide +kernel

/-- V-K5: EBEG clears the carry and keeps the registers. -/
theorem test_ebeg :
    nextIs (exec .ebeg { State.reset with eng := ksAfter .reference (Combiner.ofSeed 0xFFFFFFFFFF) 1 })
      (fun t => !t.eng.carry && t.eng.s17 == 0x071FF && t.eng.s25 == 0x001FFFF) = true := by decide +kernel

/-- V-K1 under LITERAL: byte 2 is 0xFF; V-K2 under NEVER: byte 1 is 0xFE. -/
theorem test_other_parameters :
    ksAt { Params.reference with tapIndexing := .literal } (Combiner.ofSeed 0) 2 = 0xFF ∧
      ksAt { Params.reference with carryRule := .never } (Combiner.ofSeed 0xFFFFFFFFFF) 1 = 0xFE := by decide +kernel

/-! ## The cipher unit -/

/-- V-C2. -/
theorem test_exb :
    nextIs (exec (.exb 0xAB) (cipherBlock 0xFFFFFFFFFF [])) (fun t => t.result == 0x55 && t.eng.carry) = true := by
  decide +kernel

/-- V-C2, the EXN after that EXB. -/
theorem test_exn :
    nextIs (exec (.exn 0xC) { State.reset with eng := ksAfter .reference (Combiner.ofSeed 0xFFFFFFFFFF) 1 })
      (fun t => t.result == 0x3 && t.eng.s25 == 0x1C001FF) = true := by decide +kernel

/-- E7: "0xabc" gives "0x553". -/
theorem test_etrn :
    nextIs (exec .etrn (cipherBlock 0xFFFFFFFFFF textAbc))
      (fun t => t.readBytes 0x200 5 == [0x30, 0x78, 0x35, 0x35, 0x33] && t.result == 5 && t.eng.carry) = true := by
  decide +kernel

/-- V-C1: "0xAB" is FORMAT, and "0xab" with ACCEPT_UPPERCASE. -/
theorem test_etrn_uppercase :
    nextIs (exec .etrn (cipherBlock 0 textUpper)) (fun t => t.err == .format && t.eng == Combiner.ofSeed 0) = true ∧
      nextIs (exec .etrn { cipherBlock 0 textUpper with params := { Params.reference with acceptUppercase := true } })
        (fun t => t.readBytes 0x200 4 == [0x30, 0x78, 0x61, 0x62]) = true := by decide +kernel

/-! ## The bus and the step -/

/-- P4: the all-zero word after reset. -/
theorem test_illegal_word :
    nextIs (step (State.reset.withFetchWord 32 0)) (fun t => statusWord t == 0x13) = true := by decide +kernel

/-- V-B1: the word 0x66667830 at MSGIN+0 is '0', 'x', 'f', 'f'. -/
theorem test_msgin_lanes :
    nextIs (step { State.reset with pending := [.write 0x100 4 0x66667830] })
      (fun t => t.readBytes 0x100 4 == [0x30, 0x78, 0x66, 0x66]) = true := by decide +kernel

/-- V-B1: ESEED_HI keeps 8 bits. -/
theorem test_eseed_hi_width :
    nextIs (step { State.reset with pending := [.write 0x01C 4 0xFFFFFFFF] }) (fun t => t.eseedHi == 0xFF) = true := by
  decide +kernel

/-- V-B1: bus errors. -/
theorem test_bus_errors :
    nextCycle { State.reset with pending := [.read 0x002 4] } = .error (.read 0x002 4) ∧
      nextCycle { State.reset with pending := [.read 0x020 4] } = .error (.read 0x020 4) ∧
      nextCycle { State.reset with pending := [.write 0x300 4 1] } = .error (.write 0x300 4 1) ∧
      nextCycle { State.reset with pending := [.read 0x100 2] } = .error (.read 0x100 2) := by decide +kernel

/-- With no access outstanding the block keeps its state (log entry 4). -/
theorem test_idle : step State.reset = .next State.reset := rfl

/-- R80: EINIT and MSG of program P3. -/
theorem test_pseudo_instructions :
    assemble [.einit 0xFFFFFFFFFF, .msg textAbc] =
      [.write 0x018 4 0xFFFFFFFF, .write 0x01C 4 0xFF, .write 0x000 4 0x285,
        .write 0x100 4 0x62617830, .write 0x104 4 0x00000063, .write 0x00C 4 5] := by decide +kernel

/-! ## Hypotheses of the statements are met -/

/-- A configured block and a loaded one. -/
def configured : State := { lfsrBlock 4 1 3 1 with eng := Combiner.ofSeed 0x0123456789 }

theorem test_witness_encoding :
    (Instr.exn 0x0F).wf = true ∧ (Instr.lcfg 63 63).wf = true ∧ decode 0x000F000B = .ok (.exn 0x0F) ∧
      decode 0x0000FFF1 = .ok (.lcfg 63 63) ∧ decode 0xFFFFFFFD = .error .reservedOpcode ∧
      decode 0x80000002 = .error .unusedBitSet := by decide

theorem test_witness_fetch :
    decodeTableWord 32 0x0000000C = some .etrn ∧ decodeTableWord 32 0x0000000D = none ∧
      decodeTableWord 4 0x00000013 = some .lnxt := by decide

theorem test_witness_allowed_accesses :
    (HostAccess.read 0x000 4).allowed ∧ (HostAccess.read 0x01C 4).allowed ∧ (HostAccess.write 0x100 4 0).allowed ∧
      (HostAccess.write 0x2FC 4 0).allowed ∧ HostAccess.reset.allowed := by
  simp [HostAccess.allowed]

theorem test_witness_refused_accesses :
    ¬ (HostAccess.read 0x01D 4).allowed ∧ ¬ (HostAccess.read 0x020 4).allowed ∧ ¬ (HostAccess.write 0x0FC 4 0).allowed ∧
      ¬ (HostAccess.write 0x300 4 0).allowed ∧ ¬ (HostAccess.read 0xFFC 4).allowed ∧
      ¬ (HostAccess.read 0x000 2).allowed ∧ ¬ (HostAccess.write 0x000 1 3).allowed := by
  simp [HostAccess.allowed]

theorem test_witness_allowed_sequence :
    ∀ x ∈ [HostAccess.write 0x000 4 0x0000000C, .read 0x004 4, .reset], x.allowed := by
  simp [HostAccess.allowed]

/-- A bit list of a numeral below 2^n has no bit at or above n. -/
theorem fitsIn_of_lt {w n : Nat} {v : BitVec w} (h : v.toNat < 2 ^ n) : fitsIn n v := fun i hi => by
  rw [BitVec.getLsbD]
  exact Nat.testBit_lt_two_pow (lt_of_lt_of_le h (Nat.pow_le_pow_right (by decide) hi))

/-- A state with both units configured, an error on record and a byte in MSGIN meets the invariant and steps. -/
theorem test_witness_invariant :
    ({ configured with pending := [.write 0x000 4 0x00000003], buf := [(0x100, 0x30), (0x2FF, 0)] } : State).Inv ∧
      nextIs (step { configured with pending := [.write 0x000 4 0x00000003], buf := [(0x100, 0x30), (0x2FF, 0)] })
        (fun t => t.gen.state == 8) = true := by
  refine ⟨⟨?_, ?_, by decide, by decide, by decide⟩, by decide +kernel⟩
  · exact ⟨by decide, by decide, fitsIn_of_lt (by decide), fitsIn_of_lt (by decide), fitsIn_of_lt (by decide)⟩
  · exact ⟨by decide, by decide, fun _ => by decide⟩

theorem test_witness_block_reset :
    step { configured with pending := [.reset] } =
      .next { State.reset with resets := 1, pending := [] } := rfl

/-- The valid bits both ways, and a step that is no block reset. -/
theorem test_witness_configured :
    configured.gen.valid = true ∧ configured.eng.valid = true ∧ State.reset.gen.valid = false ∧
      State.reset.eng.valid = false ∧
      nextIs (step { configured with errSeen := true, pending := [.write 0x000 4 0x00000002] })
        (fun t => t.errSeen && t.gen.valid && t.eng.valid) = true := by decide +kernel

/-- Reads and writes that are no commands, at the ends of the buffers and the registers. -/
theorem test_witness_bus :
    nextIs (step { configured with pending := [.write 0x200 4 1] }) (fun t => t == configured) = true ∧
      nextIs (step { configured with pending := [.write 0x2FC 4 1] }) (fun t => t == configured) = true ∧
      nextIs (step { configured with pending := [.write 0x1FC 4 1] }) (fun t => t.msgIn 252 == 1) = true ∧
      nextIs (step { configured with pending := [.write 0x00C 4 0x10005, .read 0x00C 4] })
        (fun t => nextIs (step t) (fun u => u.reads == [5])) = true ∧
      nextIs (step { configured with pending := [.write 0x01C 4 0x1FF, .read 0x01C 4] })
        (fun t => nextIs (step t) (fun u => u.reads == [0xFF])) = true ∧
      nextIs (step { configured with pending := [.write 0x004 4 7, .write 0x004 4 7] }) (fun t => t.pending.length == 1)
        = true ∧
      nextIs (step { configured with pending := [.read 0x004 4, .read 0x004 4] })
        (fun t => nextIs (step t) (fun u => u.reads == [0x60, 0x60])) = true := by decide +kernel

/-- Steps that change MSGIN[0], MSGIN[255] and MSGOUT[0]. -/
theorem test_witness_buffer_changes :
    nextIs (step { configured with buf := [(0x100, 0x30)], pending := [.write 0x100 4 0x31] })
        (fun t => t.msgIn 0 == 0x31) = true ∧
      nextIs (step { configured with buf := [(0x1FF, 0x30)], pending := [.write 0x1FC 4 0] })
        (fun t => t.msgIn 255 == 0) = true ∧
      nextIs (step { cipherBlock 0 textAbc with
          buf := (cipherBlock 0 textAbc).buf ++ [(0x200, 0x41)], pending := [.write 0x000 4 0x0000000C] })
        (fun t => t.msgOut 0 == 0x30) = true := by decide +kernel

/-- Two states that differ in every hidden register of the units. -/
theorem test_witness_seen_alike :
    SeenAlike configured { lfsrBlock 5 2 7 4 with eng := Combiner.ofSeed 0 } ∧
      configured.gen ≠ (lfsrBlock 5 2 7 4).gen := by
  refine ⟨⟨rfl, rfl, rfl, rfl, rfl, rfl, rfl, rfl, rfl, rfl, fun a _ _ => rfl, rfl, rfl⟩, by decide⟩

/-- A command with a code and one without. -/
theorem test_witness_both_ends :
    nextIs (exec .eksr State.reset) (fun t => t.err == .notReady && t.errSeen) = true ∧
      nextIs (exec .eksr configured) (fun t => t.err == .none) = true := by decide +kernel

/-- Lengths 1 and 32 with registers that fit them, and k = 0, N. -/
theorem test_witness_lfsr_lengths :
    (1 ≤ 1 ∧ 1 ≤ 32 ∧ fitsIn 1 (1 : Word)) ∧ (1 ≤ 32 ∧ 32 ≤ 32 ∧ fitsIn 32 (0xFFFFFFFF : Word)) ∧
      (0 ≤ 17 ∧ 17 ≤ 17 ∧ 17 ≤ 32 ∧ fitsIn 17 (0x1FFFF : BitVec 17)) :=
  ⟨⟨by decide, by decide, fitsIn_of_lt (by decide)⟩, ⟨by decide, by decide, fitsIn_of_lt (by decide)⟩,
    ⟨by decide, by decide, by decide, fitsIn_of_lt (by decide)⟩⟩

/-- The operands at the ends of the clauses on LCFG, LSEQ and ELOAD. -/
theorem test_witness_operands :
    (0 : BitVec 6).toNat = 0 ∧ 32 < (33 : BitVec 6).toNat ∧ 32 < (63 : BitVec 6).toNat ∧ 1 ≤ (1 : BitVec 6).toNat ∧
      (32 : BitVec 6).toNat ≤ 32 ∧ (4 : BitVec 6) ≠ 5 ∧ (39 : BitVec 6).toNat ≠ 40 ∧ (41 : BitVec 6).toNat ≠ 40 ∧
      State.reset.ltaps = 0 := by decide

/-- Parameters that accept upper-case digits. -/
def acceptingUpper : Params := { Params.reference with acceptUppercase := true }

/-- Digits at the ends of their ranges. -/
theorem test_witness_hex_characters :
    hexSet .reference 0x30 ∧ hexSet .reference 0x39 ∧ hexSet .reference 0x61 ∧ hexSet .reference 0x66 := by decide

/-- With ACCEPT_UPPERCASE too. -/
theorem test_witness_uppercase_characters :
    hexSet acceptingUpper 0x41 ∧ hexSet acceptingUpper 0x46 ∧ ¬ hexSet acceptingUpper 0x47 ∧
      ¬ hexSet .reference 0x41 := by decide

/-- A valid message of the marker only, the least length. -/
theorem test_witness_valid_marker : ValidMessage (cipherBlock 0 [0x7A, 0x7A]) := by
  unfold ValidMessage
  decide +kernel

/-- A valid message of odd length. -/
theorem test_witness_valid_odd : ValidMessage (cipherBlock 0 textAbc) ∧ (cipherBlock 0 textAbc).eng.valid = true := by
  unfold ValidMessage
  decide +kernel

/-- A valid message of the largest length. -/
theorem test_witness_valid_longest : ValidMessage (cipherBlock 0 (List.replicate 256 0x66)) := by
  unfold ValidMessage
  decide +kernel

/-- Messages that each check of R145 refuses. -/
theorem test_witness_refused_messages :
    256 < ({ configured with msglen := 257 } : State).msglen.toNat ∧
      ({ configured with msglen := 1 } : State).msglen.toNat < 2 ∧
      (cipherBlock 0 textUpper).msglen.toNat ≤ 256 ∧ 3 < (cipherBlock 0 textUpper).msglen.toNat ∧
      ¬ hexSet (cipherBlock 0 textUpper).params ((cipherBlock 0 textUpper).msgIn 3) := by decide +kernel

/-- Two messages for one combiner, and two blocks with one seed. -/
theorem test_witness_same_keystream :
    (cipherBlock 5 textAbc).params = (cipherBlock 5 (List.replicate 5 0x30)).params ∧
      (cipherBlock 5 textAbc).eng = (cipherBlock 5 (List.replicate 5 0x30)).eng ∧
      (cipherBlock 5 textAbc).msglen = (cipherBlock 5 (List.replicate 5 0x30)).msglen ∧
      configured.eseedHi = State.reset.eseedHi ∧ configured.eseedLo = State.reset.eseedLo ∧
      configured.result = State.reset.result := by
  decide +kernel

theorem test_witness_same_keystream_valid :
    ValidMessage (cipherBlock 5 textAbc) ∧ ValidMessage (cipherBlock 5 (List.replicate 5 0x30)) := by
  unfold ValidMessage
  exact ⟨by decide +kernel, by decide +kernel⟩

/-- Commands of the kind that SameSeedSameResults speaks of, one of each. -/
theorem test_witness_seeded_commands :
    ∀ i ∈ [Instr.erst, .eksr, .eksb, .ebeg, .exb 0xFF, .exn 0x0F],
      i = .erst ∨ i = .eksr ∨ i = .eksb ∨ i = .ebeg ∨ (∃ d, i = .exb d) ∨ ∃ d, i = .exn d := by
  simp

/-- Aligned addresses at the ends of the ranges of the bus statements, and both carry rules. -/
theorem test_witness_bus_ranges :
    (0x100 : BusAddr).toNat % 4 = 0 ∧ (0x1FC : BusAddr).toNat % 4 = 0 ∧ (0x1FC : BusAddr).toNat < 0x200 ∧
      (0x200 : BusAddr).toNat % 4 = 0 ∧ (0x2FC : BusAddr).toNat < 0x300 ∧ (0x00C : BusAddr).toNat % 4 = 0 ∧
      (0x01C : BusAddr).toNat < 0x020 ∧ 4 ≤ (0x004 : BusAddr).toNat ∧ Params.reference.carryRule = .rawSum ∧
      ({ Params.reference with carryRule := .never } : Params).carryRule = .never := by decide

/-- The start of a round trip, with ERST and with ELOAD, and a state the second ETRN may start from. -/
theorem test_witness_round_trip :
    (cipherBlock 0 textAbc).eng.s17 = (cipherBlock 0 textAbc).eng.i17 ∧
      (cipherBlock 0 textAbc).eng.s25 = (cipherBlock 0 textAbc).eng.i25 ∧
      init17 (seed40 (cipherBlock 0 textAbc)) = (cipherBlock 0 textAbc).eng.i17 ∧
      init25 (seed40 (cipherBlock 0 textAbc)) = (cipherBlock 0 textAbc).eng.i25 ∧
      nextIs (exec .etrn (cipherBlock 0xFFFFFFFFFF textAbc))
        (fun t => nextIs (exec .erst t) fun u =>
          nextIs (exec .etrn (cipherBlock 0xFFFFFFFFFF (u.readBytes 0x200 5)))
            (fun x => x.readBytes 0x200 5 == textAbc)) = true := by decide +kernel

end Sys2Proof.Tests
end

/-! SUPPORT. The frame of every command, said once as an equation of states, and O21 read off it. -/

namespace Sys2Proof

/-- The commands of the generic LFSR unit (40_lfsr.md R101 to R104); the others are the combiner's or the cipher
unit's. -/
def Instr.ofGenericUnit : Instr → Bool
  | .lcfg _ _ | .lrst | .lnxt | .lseq _ => true
  | .eload _ | .erst | .eksr | .eksb | .ebeg | .exb _ | .exn _ | .etrn => false

/-- The commands that store to a message buffer (42_cipher.md R146). -/
def Instr.storesBytes : Instr → Bool
  | .etrn => true
  | _ => false

theorem Instr.storesBytes_iff (i : Instr) : i.storesBytes = true ↔ i = .etrn := by
  cases i <;> simp [Instr.storesBytes]

end Sys2Proof

namespace Sys2Proof.Machine

/-! ## How a command ends -/

/-- `t` is `s` with an error reported, nothing else changed (R163). -/
def Raised (s t : State) : Prop := ∃ c, c ≠ .none ∧ t = { s with err := c, errSeen := true }

theorem raised_of_raiseError {c : ErrCode} {s t : State} (hc : c ≠ .none) (h : raiseError c s = .next t) :
    Raised s t := ⟨c, hc, (raiseError_next_iff c s t).1 h⟩

/-- A checked command whose body cannot fail ends with an error report or in the body's state (R162, R164). -/
theorem whenReady_succeed_next {v : Bool} {s t u : State} (h : whenReady v s (succeed u) = .next t) :
    Raised s t ∨ t = { u with err := .none } := by
  obtain ⟨-, h⟩ | ⟨-, rfl⟩ := (whenReady_next_iff v s t _).1 h
  · exact .inr ((succeed_next_iff u t).1 h)
  · exact .inl ⟨.notReady, by decide, rfl⟩

/-- All that LCFG can do (R101). -/
theorem execLcfg_next {a b : BitVec 6} {s t : State} (h : execLcfg a b s = .next t) :
    Raised s t ∨
      t = { s with
            gen :=
              { n := a, state := lowBits a.toNat s.lseed, taps := lowBits a.toNat s.ltaps
                init := lowBits a.toNat s.lseed, valid := true }
            err := .none } := by
  unfold execLcfg at h
  split_ifs at h
  · exact .inl (raised_of_raiseError (by decide) h)
  · exact .inl (raised_of_raiseError (by decide) h)
  · exact .inr ((succeed_next_iff _ t).1 h)

/-- All that LSEQ can do (R104). -/
theorem execLseq_next {k : BitVec 6} {s t : State} (h : execLseq k s = .next t) :
    Raised s t ∨
      t = { s with
            gen := { s.gen with state := (lfsrDraw 32 s.gen.state s.gen.taps s.gen.n.toNat k.toNat).1 }
            result := (lfsrDraw 32 s.gen.state s.gen.taps s.gen.n.toNat k.toNat).2
            err := .none } := by
  rw [execLseq_eq] at h
  split_ifs at h
  · obtain ⟨-, h⟩ | ⟨-, rfl⟩ := (whenReady_next_iff _ s t _).1 h
    · exact .inl (raised_of_raiseError (by decide) h)
    · exact .inl ⟨.notReady, by decide, rfl⟩
  · exact whenReady_succeed_next h

/-- All that ELOAD can do (R121). -/
theorem execEload_next {n : BitVec 6} {s t : State} (h : execEload n s = .next t) :
    Raised s t ∨ t = { s with eng := Combiner.ofSeed (seed40 s), err := .none } := by
  unfold execEload at h
  split_ifs at h
  · exact .inl (raised_of_raiseError (by decide) h)
  · exact .inr ((succeed_next_iff _ t).1 h)

/-- EKSR draws without touching the carry (R123, R126). -/
theorem execEksr_carry {s t : State} (h : execEksr s = .next t) : t.eng.carry = s.eng.carry := by
  rw [execEksr_eq] at h
  obtain ⟨c, -, rfl⟩ | rfl := whenReady_succeed_next h
  · rfl
  · exact ksRaw_carry s.params s.eng

/-! ## What a command may change -/

/-- `t` differs from `s` at most in the error report, in RESULT, in the unit the command belongs to and, for a
command that stores, in the buffers. -/
def ChangesAtMost (i : Instr) (s t : State) : Prop :=
  t = { s with
        gen := if i.ofGenericUnit then t.gen else s.gen
        eng := if i.ofGenericUnit then s.eng else t.eng
        buf := if i.storesBytes then t.buf else s.buf
        err := t.err
        errSeen := t.errSeen
        result := t.result }

theorem Raised.changesAtMost {s t : State} (h : Raised s t) (i : Instr) : ChangesAtMost i s t := by
  obtain ⟨c, -, rfl⟩ := h
  simp only [ChangesAtMost, ite_self]

/-- A command that reports an error or ends in `u` changes at most what `u` does. -/
theorem changesAtMost_of_raised_or {i : Instr} {s t u : State} (h : Raised s t ∨ t = u)
    (hu : ChangesAtMost i s u) : ChangesAtMost i s t := by
  obtain h | rfl := h
  · exact h.changesAtMost i
  · exact hu

theorem execEtrn_changesAtMost {s t : State} (h : execEtrn s = .next t) : ChangesAtMost .etrn s t := by
  obtain ⟨c, hc, rfl⟩ | ⟨ds, -, -, -, -, -, rfl⟩ := execEtrn_next h
  · exact Raised.changesAtMost ⟨c, by rintro rfl; simp at hc, rfl⟩ _
  · rw [etrnDone, State.writeBytes_eq]
    rfl

/-- The frame of every command: the case split over the commands is made here once. -/
theorem exec_changesAtMost {i : Instr} {s t : State} (h : exec i s = .next t) : ChangesAtMost i s t := by
  cases i with
  | lcfg a b => exact changesAtMost_of_raised_or (execLcfg_next h) rfl
  | lrst => exact changesAtMost_of_raised_or (whenReady_succeed_next h) rfl
  | lnxt => exact changesAtMost_of_raised_or (whenReady_succeed_next ((execLnxt_eq s).symm.trans h)) rfl
  | lseq k => exact changesAtMost_of_raised_or (execLseq_next h) rfl
  | eload n => exact changesAtMost_of_raised_or (execEload_next h) rfl
  | erst => exact changesAtMost_of_raised_or (whenReady_succeed_next h) rfl
  | eksr => exact changesAtMost_of_raised_or (whenReady_succeed_next ((execEksr_eq s).symm.trans h)) rfl
  | eksb => exact changesAtMost_of_raised_or (whenReady_succeed_next ((execEksb_eq s).symm.trans h)) rfl
  | ebeg => exact changesAtMost_of_raised_or (whenReady_succeed_next h) rfl
  | exb d => exact changesAtMost_of_raised_or (whenReady_succeed_next ((execExb_eq d s).symm.trans h)) rfl
  | exn d => exact changesAtMost_of_raised_or (whenReady_succeed_next ((execExn_eq d s).symm.trans h)) rfl
  | etrn => exact execEtrn_changesAtMost h

/-! ## The buffers and the units -/

/-- A command that stores nothing leaves every buffer byte (R57). -/
theorem exec_readByte {i : Instr} {s t : State} (h : exec i s = .next t) (hi : i ≠ .etrn) (a : Nat) :
    t.readByte a = s.readByte a := by
  have ht : ChangesAtMost i s t := exec_changesAtMost h
  rw [ChangesAtMost, if_neg (mt i.storesBytes_iff.1 hi)] at ht
  exact State.readByte_congr (by rw [ht]) (by rw [ht]) a

/-- ETRN stores at MSGOUT's addresses and above only, so no byte below them changes (R146). -/
theorem execEtrn_readByte_below {s t : State} (h : execEtrn s = .next t) {a : Nat} (ha : a < msgOutAddr 0) :
    t.readByte a = s.readByte a := by
  obtain ⟨c, -, rfl⟩ | ⟨ds, -, -, -, -, -, rfl⟩ := execEtrn_next h
  · rfl
  · exact State.readByte_writeBytes_outside s (msgOutAddr 0) _ (.inl ha)

/-- No command changes MSGIN (R57). -/
theorem exec_msgIn {i : Instr} {s t : State} (h : exec i s = .next t) {k : Nat} (hk : k < 256) :
    t.msgIn k = s.msgIn k := by
  by_cases hi : i = .etrn
  · subst hi
    exact execEtrn_readByte_below h (by unfold msgInAddr msgOutAddr; omega)
  · exact exec_readByte h hi _

/-- A command of the generic unit leaves the combiner (R25). -/
theorem exec_eng {i : Instr} {s t : State} (h : exec i s = .next t) (hi : i.ofGenericUnit = true) :
    t.eng = s.eng := by
  have ht : ChangesAtMost i s t := exec_changesAtMost h
  rw [ht]
  exact if_pos hi

/-- A command of the combiner or the cipher unit leaves the generic unit (R7). -/
theorem exec_gen {i : Instr} {s t : State} (h : exec i s = .next t) (hi : i.ofGenericUnit = false) :
    t.gen = s.gen := by
  have ht : ChangesAtMost i s t := exec_changesAtMost h
  rw [ht]
  exact if_neg (by simp [hi])

/-- Settles O21: the registers and the host's side from the one frame equation, the units by the command's kind. -/
theorem commandFrames : Obligations.CommandFrames := by
  unfold Obligations.CommandFrames
  intro i s t h
  have ht : ChangesAtMost i s t := exec_changesAtMost h
  refine ⟨by rw [ht], by rw [ht], by rw [ht], by rw [ht], by rw [ht], by rw [ht], by rw [ht], by rw [ht],
    by rw [ht], fun k hk => exec_msgIn h hk, exec_readByte h, ?_⟩
  cases i with
  | lcfg a b => exact exec_eng h rfl
  | lrst => exact exec_eng h rfl
  | lnxt => exact exec_eng h rfl
  | lseq k => exact exec_eng h rfl
  | eload n => exact exec_gen h rfl
  | erst => exact exec_gen h rfl
  | eksr => exact ⟨exec_gen h rfl, execEksr_carry h⟩
  | eksb => exact exec_gen h rfl
  | ebeg => exact exec_gen h rfl
  | exb d => exact exec_gen h rfl
  | exn d => exact exec_gen h rfl
  | etrn => exact exec_gen h rfl

end Sys2Proof.Machine

/-! SUPPORT. All that a command that completes can do, said once, and the invariant that every step keeps (O9, O10). -/

namespace Sys2Proof.Machine

/-! ## All that a command can do -/

/-- A checked command whose body cannot fail ends with an error report, or ready and in the body's state (R162,
R164). -/
theorem whenReady_succeed_cases {v : Bool} {s t u : State} (h : whenReady v s (succeed u) = .next t) :
    Raised s t ∨ (v = true ∧ t = { u with err := .none }) := by
  obtain ⟨hv, h⟩ | ⟨-, rfl⟩ := (whenReady_next_iff v s t _).1 h
  · exact .inr ⟨hv, (succeed_next_iff u t).1 h⟩
  · exact .inl ⟨.notReady, by decide, rfl⟩

/-- The command ends without an error in `t`: the checks it passed, and what it leaves. -/
def Succeeds : Instr → State → State → Prop
  | .lcfg a b, s, t => a = b ∧ 1 ≤ a.toNat ∧ a.toNat ≤ 32 ∧
      t = { s with
            gen :=
              { n := a, state := lowBits a.toNat s.lseed, taps := lowBits a.toNat s.ltaps
                init := lowBits a.toNat s.lseed, valid := true }
            err := .none }
  | .lrst, s, t => s.gen.valid = true ∧ t = { s with gen := { s.gen with state := s.gen.init }, err := .none }
  | .lnxt, s, t => s.gen.valid = true ∧
      t = { s with
            gen := { s.gen with state := (lfsrStep s.gen.state s.gen.taps s.gen.n.toNat).1 }
            result := (BitVec.ofBool (lfsrStep s.gen.state s.gen.taps s.gen.n.toNat).2).setWidth 32
            err := .none }
  | .lseq k, s, t => s.gen.valid = true ∧
      t = { s with
            gen := { s.gen with state := (lfsrDraw 32 s.gen.state s.gen.taps s.gen.n.toNat k.toNat).1 }
            result := (lfsrDraw 32 s.gen.state s.gen.taps s.gen.n.toNat k.toNat).2
            err := .none }
  | .eload _, s, t => t = { s with eng := Combiner.ofSeed (seed40 s), err := .none }
  | .erst, s, t => s.eng.valid = true ∧
      t = { s with eng := { s.eng with s17 := s.eng.i17, s25 := s.eng.i25, carry := false }, err := .none }
  | .eksr, s, t => s.eng.valid = true ∧
      t = { s with
            eng := (ksRaw s.params s.eng).1, result := BitVec.ofNat 32 (ksRaw s.params s.eng).2, err := .none }
  | .eksb, s, t => s.eng.valid = true ∧
      t = { s with
            eng := (ksByte s.params s.eng).1, result := (ksByte s.params s.eng).2.setWidth 32, err := .none }
  | .ebeg, s, t => s.eng.valid = true ∧ t = { s with eng := { s.eng with carry := false }, err := .none }
  | .exb d, s, t => s.eng.valid = true ∧
      t = { s with
            eng := (ksByte s.params s.eng).1
            result := (d ^^^ (ksByte s.params s.eng).2).setWidth 32
            err := .none }
  | .exn d, s, t => s.eng.valid = true ∧
      t = { s with
            eng := (ksByte s.params s.eng).1
            result := (exnNibble d ^^^ highNibble (ksByte s.params s.eng).2).setWidth 32
            err := .none }
  | .etrn, s, t => s.eng.valid = true ∧ ∃ ds, ds.length + 2 ≤ 256 ∧ t = etrnDone s ds

theorem execLcfg_cases {a b : BitVec 6} {s t : State} (h : execLcfg a b s = .next t) :
    Raised s t ∨ Succeeds (.lcfg a b) s t := by
  unfold execLcfg at h
  split_ifs at h with hab hlen
  · exact .inl (raised_of_raiseError (by decide) h)
  · exact .inl (raised_of_raiseError (by decide) h)
  · unfold nMax at hlen
    exact .inr ⟨not_not.1 hab, by omega, by omega, (succeed_next_iff _ t).1 h⟩

theorem execLseq_cases {k : BitVec 6} {s t : State} (h : execLseq k s = .next t) :
    Raised s t ∨ Succeeds (.lseq k) s t := by
  rw [execLseq_eq] at h
  split_ifs at h
  · obtain ⟨-, h⟩ | ⟨-, rfl⟩ := (whenReady_next_iff _ s t _).1 h
    · exact .inl (raised_of_raiseError (by decide) h)
    · exact .inl ⟨.notReady, by decide, rfl⟩
  · exact whenReady_succeed_cases h

theorem execEtrn_cases {s t : State} (h : execEtrn s = .next t) : Raised s t ∨ Succeeds .etrn s t := by
  obtain ⟨c, hc, rfl⟩ | ⟨ds, hv, hlo, hhi, -, hlen, rfl⟩ := execEtrn_next h
  · exact .inl ⟨c, by rintro rfl; simp at hc, rfl⟩
  · exact .inr ⟨hv, ds, by omega, rfl⟩

/-- Every command reports an error and changes nothing else, or succeeds as its rule says (R163, R164). -/
theorem exec_cases {i : Instr} {s t : State} (h : exec i s = .next t) : Raised s t ∨ Succeeds i s t := by
  cases i with
  | lcfg a b => exact execLcfg_cases h
  | lrst => exact whenReady_succeed_cases h
  | lnxt => exact whenReady_succeed_cases ((execLnxt_eq s).symm.trans h)
  | lseq k => exact execLseq_cases h
  | eload n => exact execEload_next h
  | erst => exact whenReady_succeed_cases h
  | eksr => exact whenReady_succeed_cases ((execEksr_eq s).symm.trans h)
  | eksb => exact whenReady_succeed_cases ((execEksb_eq s).symm.trans h)
  | ebeg => exact whenReady_succeed_cases h
  | exb d => exact whenReady_succeed_cases ((execExb_eq d s).symm.trans h)
  | exn d => exact whenReady_succeed_cases ((execExn_eq d s).symm.trans h)
  | etrn => exact execEtrn_cases h

/-- Success clears ERR and leaves ERRSEEN (R164). -/
theorem Succeeds.err_errSeen {i : Instr} {s t : State} (h : Succeeds i s t) :
    t.err = .none ∧ t.errSeen = s.errSeen := by
  cases i with
  | lcfg a b => obtain ⟨-, -, -, rfl⟩ := h; exact ⟨rfl, rfl⟩
  | eload n => subst h; exact ⟨rfl, rfl⟩
  | etrn => obtain ⟨-, ds, -, rfl⟩ := h; exact ⟨rfl, State.writeBytes_errSeen _ _ _⟩
  | _ => obtain ⟨-, rfl⟩ := h; exact ⟨rfl, rfl⟩

/-! ## The LFSR step (R100, R107) -/

/-- The bits of the register after a step: the old ones shifted down, under the feedback bit at N-1. -/
theorem lfsrStep_getLsbD {w : Nat} (S T : BitVec w) (N i : Nat) :
    (lfsrStep S T N).1.getLsbD i =
      (S.getLsbD (i + 1) || (decide (i < w ∧ i + 1 = max N 1) && parity (S &&& T))) := by
  rw [lfsrStep, BitVec.getLsbD_or, BitVec.getLsbD_ushiftRight, BitVec.getLsbD_shiftLeft, Nat.add_comm 1 i,
    BitVec.getLsbD_setWidth, BitVec.getLsbD_ofBool]
  congr 1
  grind

/-- A step brings no bit to or above N (R22). -/
theorem fitsIn_lfsrStep {w N : Nat} {S : BitVec w} (T : BitVec w) (hN : 1 ≤ N) (hS : fitsIn N S) :
    fitsIn N (lfsrStep S T N).1 := by
  intro i hi
  rw [lfsrStep_getLsbD, hS (i + 1) (by omega), decide_eq_false (by omega)]
  rfl

/-- The top bit after a step of a register that fills its word is the feedback bit (R100). -/
theorem lfsrStep_getLsbD_top {w : Nat} (S T : BitVec (w + 1)) :
    (lfsrStep S T (w + 1)).1.getLsbD w = parity (S &&& T) := by
  rw [lfsrStep_getLsbD, BitVec.getLsbD_of_ge S (w + 1) le_rfl, decide_eq_true (by omega)]
  simp

theorem parityBelow_of_tail_false {w : Nat} {v : BitVec w} (hv : ∀ i, v.getLsbD (i + 1) = false) (n : Nat) :
    parityBelow v (n + 1) = v.getLsbD 0 := by
  induction n with
  | zero => simp [parityBelow]
  | succ n ih => rw [parityBelow, ih, hv, Bool.false_xor]

/-- With tap 0 set a step loses no information about 0: a register that is not 0 does not become 0 (R107). Only the
register 1 has nothing left to shift down, and its feedback bit is the tap's. -/
theorem lfsrStep_ne_zero {w : Nat} {S T : BitVec (w + 1)} (hT : T.getLsbD 0 = true) (hS : S ≠ 0) :
    (lfsrStep S T (w + 1)).1 ≠ 0 := by
  intro hzero
  have hbits (i : Nat) : (lfsrStep S T (w + 1)).1.getLsbD i = false := by simp [hzero]
  have htail (i : Nat) : S.getLsbD (i + 1) = false := by
    have h := hbits i
    rw [lfsrStep_getLsbD, Bool.or_eq_false_iff] at h
    exact h.1
  have hlow : S.getLsbD 0 = false := by
    have h := hbits w
    rw [lfsrStep_getLsbD_top, parity, parityBelow_of_tail_false fun i => by simp [htail]] at h
    rwa [BitVec.getLsbD_and, hT, Bool.and_true] at h
  refine hS (BitVec.eq_of_getLsbD_eq fun i _ => ?_)
  cases i with
  | zero => rw [hlow]; simp
  | succ i => rw [htail]; simp

/-- What each step keeps, the drawing of bits keeps. -/
theorem lfsrDraw_keeps {w : Nat} {P : BitVec w → Prop} {T : BitVec w} {N : Nat}
    (hstep : ∀ S, P S → P (lfsrStep S T N).1) (m : Nat) {S : BitVec w} (hS : P S) (k : Nat) :
    P (lfsrDraw m S T N k).1 := by
  induction k with
  | zero => exact hS
  | succ k ih => exact hstep _ ih

/-- `k` drawn bits are a number below `2 ^ k`. -/
theorem lfsrDraw_toNat_lt {w : Nat} (m : Nat) (S T : BitVec w) (N k : Nat) :
    (lfsrDraw m S T N k).2.toNat < 2 ^ k := by
  induction k with
  | zero => simp
  | succ k ih =>
    have hbit (b : Bool) : (((BitVec.ofBool b).setWidth m) <<< k).toNat < 2 ^ (k + 1) := by
      have hb : b.toNat % 2 ^ m ≤ 1 := (Nat.mod_le _ _).trans (Bool.toNat_le b)
      rw [BitVec.toNat_shiftLeft, BitVec.toNat_setWidth, BitVec.toNat_ofBool, Nat.shiftLeft_eq]
      calc b.toNat % 2 ^ m * 2 ^ k % 2 ^ m ≤ 1 * 2 ^ k := (Nat.mod_le _ _).trans (Nat.mul_le_mul_right _ hb)
        _ < 2 ^ (k + 1) := by rw [Nat.one_mul]; exact Nat.pow_lt_pow_right (by decide) (by omega)
    rw [lfsrDraw_succ, BitVec.toNat_or]
    exact Nat.or_lt_two_pow (ih.trans (Nat.pow_lt_pow_right (by decide) (by omega))) (hbit _)

/-! ## The generic unit keeps its invariant (R22) -/

theorem fitsIn_lowBits (n : Nat) (v : Word) : fitsIn n (lowBits n v) := by
  intro i hi
  have h : (BitVec.ofNat 32 (2 ^ n - 1)).getLsbD i = false := by
    simp [BitVec.getLsbD_ofNat, Nat.testBit_two_pow_sub_one, hi]
  rw [lowBits, BitVec.getLsbD_and, h, Bool.and_false]

theorem LfsrUnit.inv_of_valid {g : LfsrUnit} (hv : g.valid = true) :
    g.Inv ↔ 1 ≤ g.n.toNat ∧ g.n.toNat ≤ 32 ∧
      fitsIn g.n.toNat g.state ∧ fitsIn g.n.toNat g.taps ∧ fitsIn g.n.toNat g.init := by
  rw [LfsrUnit.Inv, if_pos hv]

/-- A configured unit keeps the invariant when its register takes any value that fits. -/
theorem LfsrUnit.Inv.withState {g : LfsrUnit} (h : g.Inv) (hv : g.valid = true) {S : Word}
    (hS : 1 ≤ g.n.toNat → fitsIn g.n.toNat g.state → fitsIn g.n.toNat g.init → fitsIn g.n.toNat S) :
    ({ g with state := S } : LfsrUnit).Inv := by
  obtain ⟨hlo, hhi, hstate, htaps, hinit⟩ := (LfsrUnit.inv_of_valid hv).1 h
  exact (LfsrUnit.inv_of_valid (g := { g with state := S }) hv).2
    ⟨hlo, hhi, hS hlo hstate hinit, htaps, hinit⟩

theorem Succeeds.gen_inv {i : Instr} {s t : State} (h : Succeeds i s t) (hs : s.gen.Inv) : t.gen.Inv := by
  cases i with
  | lcfg a b =>
    obtain ⟨-, hlo, hhi, rfl⟩ := h
    exact (LfsrUnit.inv_of_valid rfl).2
      ⟨hlo, hhi, fitsIn_lowBits _ _, fitsIn_lowBits _ _, fitsIn_lowBits _ _⟩
  | lrst =>
    obtain ⟨hv, rfl⟩ := h
    exact hs.withState hv fun _ _ hinit => hinit
  | lnxt =>
    obtain ⟨hv, rfl⟩ := h
    exact hs.withState hv fun hlo hstate _ => fitsIn_lfsrStep _ hlo hstate
  | lseq k =>
    obtain ⟨hv, rfl⟩ := h
    exact hs.withState hv fun hlo hstate _ => lfsrDraw_keeps (fun _ => fitsIn_lfsrStep _ hlo) 32 hstate _
  | eload n => subst h; exact hs
  | etrn => obtain ⟨-, ds, -, rfl⟩ := h; simpa [etrnDone] using hs
  | _ => obtain ⟨-, rfl⟩ := h; exact hs

/-! ## The combiner keeps its invariant (R24, R107, R124) -/

/-- A configured combiner in a state that R24, R107 and R124 allow. -/
def Combiner.Sound (p : Params) (e : Combiner) : Prop :=
  e.valid = true ∧ e.i17.getLsbD 16 = true ∧ e.i25.getLsbD 24 = true ∧
    (p.tapIndexing = .reversed → e.s17 ≠ 0 ∧ e.s25 ≠ 0) ∧ (p.carryRule = .never → e.carry = false)

/-- The part of the state's invariant that is about the combiner. -/
theorem Combiner.sound_iff (p : Params) {e : Combiner} (hv : e.valid = true) :
    e.Sound p ↔ e.Inv p ∧ (p.carryRule = .never → e.carry = false) := by
  simp only [Combiner.Sound, Combiner.Inv, hv, if_true, true_and, and_assoc]

theorem ksRaw_sound {p : Params} {e : Combiner} (h : e.Sound p) : (ksRaw p e).1.Sound p := by
  obtain ⟨hv, h17, h25, hregs, hcarry⟩ := h
  refine ⟨hv, h17, h25, fun hp => ?_, hcarry⟩
  obtain ⟨hs17, hs25⟩ := hregs hp
  rw [ksRaw_eq, hp]
  exact ⟨lfsrDraw_keeps (P := (· ≠ 0)) (fun _ => lfsrStep_ne_zero rfl) 8 hs17 8,
    lfsrDraw_keeps (P := (· ≠ 0)) (fun _ => lfsrStep_ne_zero rfl) 8 hs25 8⟩

theorem Combiner.Sound.withCarry {p : Params} {e : Combiner} (h : e.Sound p) {c : Bool}
    (hc : p.carryRule = .never → c = false) : ({ e with carry := c } : Combiner).Sound p := by
  obtain ⟨hv, h17, h25, hregs, -⟩ := h
  exact ⟨hv, h17, h25, hregs, hc⟩

theorem carryNext_never {rule : CarryRule} (h : rule = .never) (raw : Nat) : carryNext rule raw = false := by
  rw [h]; rfl

theorem ksByte_sound {p : Params} {e : Combiner} (h : e.Sound p) : (ksByte p e).1.Sound p :=
  (ksRaw_sound h).withCarry fun hp => carryNext_never hp _

theorem transformNibbles_sound {p : Params} :
    ∀ {e : Combiner} (ds : List Nibble), e.Sound p → (transformNibbles p e ds).1.Sound p
  | _, [], h => h
  | _, [_], h => ksByte_sound h
  | _, _ :: _ :: rest, h => transformNibbles_sound rest (ksByte_sound h)

theorem ne_zero_of_getLsbD {w i : Nat} {v : BitVec w} (h : v.getLsbD i = true) : v ≠ 0 := by
  rintro rfl
  simp at h

/-- A combiner at the start of its keystream, its saved seeds with their leading 1, is sound (R107, R120, R122). -/
theorem Combiner.sound_of_start (p : Params) {e : Combiner} (hv : e.valid = true) (h17 : e.i17.getLsbD 16 = true)
    (h25 : e.i25.getLsbD 24 = true) (hs17 : e.s17 = e.i17) (hs25 : e.s25 = e.i25) (hc : e.carry = false) :
    e.Sound p := by
  refine ⟨hv, h17, h25, fun _ => ?_, fun _ => hc⟩
  rw [hs17, hs25]
  exact ⟨ne_zero_of_getLsbD h17, ne_zero_of_getLsbD h25⟩

theorem Combiner.ofSeed_sound (p : Params) (seed : BitVec 40) : (Combiner.ofSeed seed).Sound p :=
  Combiner.sound_of_start p rfl (by simp [Combiner.ofSeed, init17]) (by simp [Combiner.ofSeed, init25]) rfl rfl rfl

/-- A command that succeeds leaves the combiner as it was, or configured and sound. -/
theorem Succeeds.eng_sound {i : Instr} {s t : State} (h : Succeeds i s t)
    (hs : s.eng.valid = true → s.eng.Sound s.params) : t.eng = s.eng ∨ t.eng.Sound s.params := by
  cases i with
  | lcfg a b => obtain ⟨-, -, -, rfl⟩ := h; exact .inl rfl
  | lrst => obtain ⟨-, rfl⟩ := h; exact .inl rfl
  | lnxt => obtain ⟨-, rfl⟩ := h; exact .inl rfl
  | lseq k => obtain ⟨-, rfl⟩ := h; exact .inl rfl
  | eload n => subst h; exact .inr (Combiner.ofSeed_sound _ _)
  | erst =>
    obtain ⟨hv, rfl⟩ := h
    obtain ⟨-, h17, h25, -, -⟩ := hs hv
    exact .inr (Combiner.sound_of_start _ hv h17 h25 rfl rfl rfl)
  | eksr => obtain ⟨hv, rfl⟩ := h; exact .inr (ksRaw_sound (hs hv))
  | eksb => obtain ⟨hv, rfl⟩ := h; exact .inr (ksByte_sound (hs hv))
  | ebeg => obtain ⟨hv, rfl⟩ := h; exact .inr ((hs hv).withCarry fun _ => rfl)
  | exb d => obtain ⟨hv, rfl⟩ := h; exact .inr (ksByte_sound (hs hv))
  | exn d => obtain ⟨hv, rfl⟩ := h; exact .inr (ksByte_sound (hs hv))
  | etrn =>
    obtain ⟨hv, ds, -, rfl⟩ := h
    exact .inr (transformNibbles_sound ds ((hs hv).withCarry fun _ => rfl))

/-! ## Every command keeps the invariant -/

/-- A command that succeeds keeps the buffers' canonical form: ETRN stores MSGLEN bytes from 0x200 on, at most 256. -/
theorem Succeeds.buf_wf {i : Instr} {s t : State} (h : Succeeds i s t) (hs : s.buf.wf = true) : t.buf.wf = true := by
  cases i with
  | lcfg a b => obtain ⟨-, -, -, rfl⟩ := h; exact hs
  | eload n => subst h; exact hs
  | etrn =>
    obtain ⟨-, ds, hlen, rfl⟩ := h
    have hout := (transformNibbles_frame s.params { s.eng with carry := false } ds).1
    refine State.writeBytes_wf _ hs (by decide) ?_
    simp only [List.length_cons, List.length_map, hout, msgOutAddr]
    omega
  | _ => obtain ⟨-, rfl⟩ := h; exact hs

theorem Raised.inv {s t : State} (h : Raised s t) (hs : s.Inv) : t.Inv := by
  obtain ⟨c, -, rfl⟩ := h
  obtain ⟨hgen, heng, -, hcarry, hbuf⟩ := hs
  exact ⟨hgen, heng, fun _ => rfl, hcarry, hbuf⟩

theorem Succeeds.inv {i : Instr} {s t : State} (h : Succeeds i s t) (hp : t.params = s.params) (hs : s.Inv) :
    t.Inv := by
  obtain ⟨hgen, heng, -, hcarry, hbuf⟩ := hs
  have hsound : t.eng.Inv s.params ∧ (s.params.carryRule = .never → t.eng.carry = false) := by
    obtain ht | ht := h.eng_sound fun hv => (Combiner.sound_iff _ hv).2 ⟨heng, hcarry⟩
    · rw [ht]; exact ⟨heng, hcarry⟩
    · exact (Combiner.sound_iff _ ht.1).1 ht
  refine ⟨h.gen_inv hgen, ?_, fun herr => absurd h.err_errSeen.1 herr, ?_, h.buf_wf hbuf⟩
  · rw [hp]; exact hsound.1
  · rw [hp]; exact hsound.2

theorem exec_params {i : Instr} {s t : State} (h : exec i s = .next t) : t.params = s.params := by
  rw [exec_changesAtMost h]

theorem exec_keeps_inv {i : Instr} {s t : State} (h : exec i s = .next t) (hs : s.Inv) : t.Inv := by
  obtain hr | hd := exec_cases h
  · exact hr.inv hs
  · exact hd.inv (exec_params h) hs

/-! ## Every access keeps the invariant -/

theorem busTarget_msgIn {a : BusAddr} (h : busTarget a = .msgIn) : 0x100 ≤ a.toNat ∧ a.toNat < 0x200 := by
  unfold busTarget at h
  split_ifs at h with h₁ h₂ h₃
  · split at h <;> simp at h
  · omega

/-- A write stores four bytes inside MSGIN or none. -/
theorem writeTarget_buf_wf {x : HostAccess} {s t : State} {a : BusAddr} {v : Word}
    (h : writeTarget x s a v = .done t) (ha : a.toNat % 4 = 0) (hs : s.buf.wf = true) : t.buf.wf = true := by
  unfold writeTarget at h
  cases hb : busTarget a with
  | msgIn =>
    obtain ⟨hlo, hhi⟩ := busTarget_msgIn hb
    simp only [hb, BusCycle.done.injEq] at h
    subst h
    exact State.writeWord_wf v hs hlo (by omega)
  | cmd => simp [hb] at h
  | reserved => simp [hb] at h
  | _ => simp only [hb, BusCycle.done.injEq] at h; subst h; exact hs

/-- All that an access that completes and is no command can do. -/
theorem busAccess_done {x : HostAccess} {s t : State} (h : busAccess s x = .done t) :
    t = blockReset s ∨ (∃ v, t = { s with reads := v :: s.reads }) ∨
      ∃ a v, a.toNat % 4 = 0 ∧ writeTarget x s a v = .done t := by
  cases x with
  | reset => exact .inl (by simpa [busAccess] using h.symm)
  | read a n =>
    cases hr : busRead s a n with
    | some v => exact .inr (.inl ⟨v, by simpa [busAccess, hr] using h.symm⟩)
    | none => simp [busAccess, hr] at h
  | write a n v =>
    simp only [busAccess] at h
    split_ifs at h with ha
    obtain ⟨-, halign, -⟩ := (busAccepts_iff a n).1 ha
    exact .inr (.inr ⟨a, v, halign, h⟩)

/-- A command is run on the state the CMD write found (R81). -/
theorem busAccess_command {x : HostAccess} {s t : State} {w : Word} (h : busAccess s x = .command w t) : t = s := by
  cases x with
  | reset => simp [busAccess] at h
  | read a n => cases hr : busRead s a n <;> simp [busAccess, hr] at h
  | write a n v =>
    simp only [busAccess] at h
    split_ifs at h
    exact (writeTarget_command h).2.2

/-- The invariant of a block after reset, whatever its parameters (R40). -/
theorem resetWith_inv (p : Params) : (State.resetWith p).Inv :=
  ⟨rfl, rfl, fun h => absurd rfl h, fun _ => rfl, rfl⟩

theorem busAccess_keeps_inv {x : HostAccess} {s t : State} (h : busAccess s x = .done t) (hs : s.Inv) :
    t.Inv ∧ t.params = s.params := by
  obtain rfl | ⟨v, rfl⟩ | ⟨a, v, halign, hw⟩ := busAccess_done h
  · exact ⟨resetWith_inv s.params, rfl⟩
  · exact ⟨hs, rfl⟩
  · obtain ⟨hgen, heng, herr, hseen, -, hparams, -⟩ := writeTarget_done hw
    obtain ⟨igen, ieng, ierr, icarry, ibuf⟩ := hs
    refine ⟨?_, hparams⟩
    rw [State.Inv, hgen, heng, herr, hseen, hparams]
    exact ⟨igen, ieng, ierr, icarry, writeTarget_buf_wf hw halign ibuf⟩

/-! ## The obligations -/

/-- Settles O10: the values of R40 meet the invariant for every choice of the parameters. -/
theorem resetHasTheStateInvariant : Obligations.ResetHasTheStateInvariant :=
  ⟨resetWith_inv Params.reference, resetWith_inv⟩

/-- Settles O9: by the cases of a step, the accesses that are no command and the commands each keep the invariant. -/
theorem stepKeepsTheStateInvariant : Obligations.StepKeepsTheStateInvariant := by
  unfold Obligations.StepKeepsTheStateInvariant
  intro s t hs h
  obtain ⟨-, rfl⟩ | ⟨x, rest, -, h⟩ := step_next h
  · exact ⟨hs, rfl⟩
  · have htaken : State.Inv { s with pending := rest } := hs
    obtain hdone | ⟨w, u, hcmd, hrun⟩ := h
    · obtain ⟨hinv, hparams⟩ := busAccess_keeps_inv hdone htaken
      exact ⟨hinv, hparams⟩
    · obtain rfl := busAccess_command hcmd
      obtain ⟨i, -, hexec⟩ | ⟨r, -, rfl⟩ := hrun
      · have hparams := exec_params hexec
        exact ⟨exec_keeps_inv hexec htaken, hparams⟩
      · exact ⟨Raised.inv ⟨.illegal, by decide, rfl⟩ htaken, rfl⟩

end Sys2Proof.Machine

/-! SUPPORT. The decoder on the words of commands, and the step that runs a command (O4). -/

namespace Sys2Proof.Machine

/-! ## Decoding the word of a command (R71, R74) -/

/-- The bits of a word built from fields, each field at its place (R71). -/
theorem assembleFields_getLsbD (op : BitVec 4) (a b : BitVec 6) (d : Byte) (i : Nat) :
    (assembleFields op a b d).getLsbD i =
      (op.getLsbD i || (decide (4 ≤ i) && a.getLsbD (i - 4)) || (decide (10 ≤ i) && b.getLsbD (i - 10)) ||
        (decide (16 ≤ i) && d.getLsbD (i - 16))) := by
  simp only [assembleFields, BitVec.getLsbD_or, BitVec.getLsbD_shiftLeft, BitVec.getLsbD_setWidth]
  have h (w : Nat) (v : BitVec w) (n : Nat) (hw : w ≤ n) : v.getLsbD n = false := BitVec.getLsbD_of_ge v n hw
  grind

theorem fieldA_assembleFields (op : BitVec 4) (a b : BitVec 6) (d : Byte) :
    fieldA (assembleFields op a b d) = a := by
  refine BitVec.eq_of_getLsbD_eq fun i hi => ?_
  rw [fieldA, BitVec.getLsbD_extractLsb', assembleFields_getLsbD, BitVec.getLsbD_of_ge op (4 + i) (by omega)]
  simp [hi, show ¬ 10 ≤ 4 + i by omega, show ¬ 16 ≤ 4 + i by omega]

theorem fieldB_assembleFields (op : BitVec 4) (a b : BitVec 6) (d : Byte) :
    fieldB (assembleFields op a b d) = b := by
  refine BitVec.eq_of_getLsbD_eq fun i hi => ?_
  rw [fieldB, BitVec.getLsbD_extractLsb', assembleFields_getLsbD, BitVec.getLsbD_of_ge op (10 + i) (by omega),
    BitVec.getLsbD_of_ge a (10 + i - 4) (by omega)]
  simp [hi, show ¬ 16 ≤ 10 + i by omega]

theorem fieldD_assembleFields (op : BitVec 4) (a b : BitVec 6) (d : Byte) :
    fieldD (assembleFields op a b d) = d := by
  refine BitVec.eq_of_getLsbD_eq fun i hi => ?_
  rw [fieldD, BitVec.getLsbD_extractLsb', assembleFields_getLsbD, BitVec.getLsbD_of_ge op (16 + i) (by omega),
    BitVec.getLsbD_of_ge a (16 + i - 4) (by omega), BitVec.getLsbD_of_ge b (16 + i - 10) (by omega)]
  simp [hi]

/-- Masking a word built from fields masks each field. -/
theorem assembleFields_and (op : BitVec 4) (a b : BitVec 6) (d : Byte) (mask : Word) :
    assembleFields op a b d &&& mask =
      assembleFields (op &&& fieldOp mask) (a &&& fieldA mask) (b &&& fieldB mask) (d &&& fieldD mask) := by
  refine BitVec.eq_of_getLsbD_eq fun i hi => ?_
  simp only [BitVec.getLsbD_and, assembleFields_getLsbD, fieldOp, fieldA, fieldB, fieldD, BitVec.getLsbD_extractLsb']
  grind

/-- The row of R74 that the opcode selects takes the word of a command, if the mask leaves its operands whole and
asks nothing else to be set. -/
theorem rowOf_assembleFields {op : BitVec 4} {a b : BitVec 6} {d : Byte} {mask pattern : Word} {i : Instr}
    (hop : op &&& fieldOp mask = op) (ha : a &&& fieldA mask = 0) (hb : b &&& fieldB mask = 0)
    (hd : d &&& fieldD mask = 0) (hpat : assembleFields op 0 0 0 = pattern) :
    rowOf mask pattern (assembleFields op a b d) i = .ok i :=
  (rowOf_ok_iff _ _ _ _ _).2 ⟨by rw [assembleFields_and, hop, ha, hb, hd, hpat], rfl⟩

/-- EXN's mask keeps D[7:4], which a well-formed command has 0 (R72). -/
theorem and_high_eq_zero {d : Byte} (h : (Instr.exn d).wf = true) : d &&& 0xF0 = 0 := by
  revert d
  decide

/-- A well-formed command is what its word decodes to (R71, R72, R74). -/
theorem decode_encode {i : Instr} (hi : i.wf = true) : decode (encode i) = .ok i := by
  cases i with
  | lcfg a b =>
    rw [encode, decode, (Laws.assembleFields_fields _ _ _ _).1, fieldA_assembleFields, fieldB_assembleFields]
    exact rowOf_assembleFields (by decide) BitVec.and_zero BitVec.and_zero (by decide) (by decide)
  | lseq a =>
    rw [encode, decode, (Laws.assembleFields_fields _ _ _ _).1, fieldA_assembleFields]
    exact rowOf_assembleFields (by decide) BitVec.and_zero (by decide) (by decide) (by decide)
  | eload a =>
    rw [encode, decode, (Laws.assembleFields_fields _ _ _ _).1, fieldA_assembleFields]
    exact rowOf_assembleFields (by decide) BitVec.and_zero (by decide) (by decide) (by decide)
  | exb d =>
    rw [encode, decode, (Laws.assembleFields_fields _ _ _ _).1, fieldD_assembleFields]
    exact rowOf_assembleFields (by decide) (by decide) (by decide) BitVec.and_zero (by decide)
  | exn d =>
    rw [encode, decode, (Laws.assembleFields_fields _ _ _ _).1, fieldD_assembleFields]
    exact rowOf_assembleFields (by decide) (by decide) (by decide) (and_high_eq_zero hi) (by decide)
  | _ => decide

/-! ## The step that runs a command (R27, R81) -/

theorem step_of_decode_ok {w : Word} {i : Instr} (hw : decode w = .ok i) (s : State) (rest : List HostAccess) :
    step { s with pending := .write 0x000 4 w :: rest } = exec i { s with pending := rest } := by
  rw [step_command, hw]

theorem step_of_decode_error {w : Word} {r : DecodeReject} (hw : decode w = .error r) (s : State)
    (rest : List HostAccess) :
    step { s with pending := .write 0x000 4 w :: rest } =
      .next { s with pending := rest, err := .illegal, errSeen := true } := by
  rw [step_command, hw]
  rfl

theorem decodeTableWord_eq_some_iff (n w : Nat) (i : Instr) :
    decodeTableWord n w = some i ↔ decode (tableWord n w) = .ok i := by
  unfold decodeTableWord
  cases decode (tableWord n w) <;> simp

theorem decodeTableWord_eq_none_iff (n w : Nat) :
    decodeTableWord n w = none ↔ ∃ r, decode (tableWord n w) = .error r := by
  unfold decodeTableWord
  cases decode (tableWord n w) <;> simp

/-- Settles O4: the step at a CMD write is the decoder's answer, whether the word is given, encoded or placed. -/
theorem stepRunsTheDecodedCommand : Obligations.StepRunsTheDecodedCommand := by
  unfold Obligations.StepRunsTheDecodedCommand
  refine ⟨fun w i s rest hw => step_of_decode_ok hw s rest,
    fun i s rest hi => step_of_decode_ok (decode_encode hi) s rest, fun n w i s hw => ?_, fun n w s hw => ?_⟩
  · exact step_of_decode_ok ((decodeTableWord_eq_some_iff n w i).1 hw) s s.pending
  · obtain ⟨r, hr⟩ := (decodeTableWord_eq_none_iff n w).1 hw
    exact step_of_decode_error hr s s.pending

end Sys2Proof.Machine

/-! SUPPORT. The registers a host reads: RESULT and STATUS, the combiner's feedback bits, and what no host access reads
(O13, O19, O20, O31). -/

namespace Sys2Proof.Machine

/-! ## RESULT (R29) -/

/-- A number of `w` bits stays below `2 ^ w` as a word. -/
theorem toNat_setWidth_lt {w : Nat} (v : BitVec w) : (v.setWidth 32).toNat < 2 ^ w := by
  rw [BitVec.toNat_setWidth]
  exact (Nat.mod_le _ _).trans_lt v.isLt

/-- A raw byte is the sum of two bytes (R123). -/
theorem ksRaw_le (p : Params) (e : Combiner) : (ksRaw p e).2 ≤ 510 := by
  rw [ksRaw_eq]
  have hx := (lfsrDraw 8 e.s17 (t17 p.tapIndexing) 17 8).2.isLt
  have hy := (lfsrDraw 8 e.s25 (t25 p.tapIndexing) 25 8).2.isLt
  dsimp only
  omega

/-- Settles O20: an error report leaves RESULT, and a command that succeeds writes what its rule says. -/
theorem resultRegisterWriters : Obligations.ResultRegisterWriters := by
  unfold Obligations.ResultRegisterWriters
  intro i s t h
  obtain ⟨c, hc, rfl⟩ | hd := exec_cases h
  · exact ⟨fun _ => rfl, fun herr => absurd herr hc⟩
  · refine ⟨fun herr => absurd hd.err_errSeen.1 herr, fun _ => ?_⟩
    cases i with
    | lcfg a b => obtain ⟨-, -, -, rfl⟩ := hd; rfl
    | lrst => obtain ⟨-, rfl⟩ := hd; rfl
    | lnxt => obtain ⟨-, rfl⟩ := hd; exact Nat.le_of_lt_succ (toNat_setWidth_lt _)
    | lseq k => obtain ⟨-, rfl⟩ := hd; exact lfsrDraw_toNat_lt _ _ _ _ _
    | eload n => subst hd; rfl
    | erst => obtain ⟨-, rfl⟩ := hd; rfl
    | eksr => obtain ⟨-, rfl⟩ := hd; exact (Nat.mod_le _ _).trans (ksRaw_le _ _)
    | eksb => obtain ⟨-, rfl⟩ := hd; exact Nat.le_of_lt_succ (toNat_setWidth_lt _)
    | ebeg => obtain ⟨-, rfl⟩ := hd; rfl
    | exb d => obtain ⟨-, rfl⟩ := hd; exact Nat.le_of_lt_succ (toNat_setWidth_lt _)
    | exn d => obtain ⟨-, rfl⟩ := hd; exact Nat.le_of_lt_succ (toNat_setWidth_lt _)
    | etrn => obtain ⟨-, ds, -, rfl⟩ := hd; exact BitVec.toNat_setWidth_of_le (by decide)

/-! ## The combiner's taps (R23) -/

/-- Settles O31: the bit that enters a register is the parity of its tapped bits. -/
theorem combinerTapMasks : Obligations.CombinerTapMasks := by
  unfold Obligations.CombinerTapMasks
  refine ⟨rfl, rfl, rfl, rfl, fun S => ⟨?_, ?_⟩, fun S => ⟨?_, ?_⟩⟩
  all_goals
    rw [lfsrStep_getLsbD_top]
    simp [parity, parityBelow, t17, t25]

/-! ## STATUS (R28) -/

/-- Every bit of STATUS. -/
theorem statusWord_getLsbD (s : State) (i : Nat) :
    (statusWord s).getLsbD i =
      (s.err.code.getLsbD i || (decide (i = 4) && s.errSeen) || (decide (i = 5) && s.gen.valid) ||
        (decide (i = 6) && s.eng.valid)) := by
  simp only [statusWord, BitVec.getLsbD_or, BitVec.getLsbD_shiftLeft, BitVec.getLsbD_setWidth, BitVec.getLsbD_ofBool]
  grind


/-- Settles O13: each field is read off the bits of the word, and the two accesses are evaluated. -/
theorem statusRegisterFields : Obligations.StatusRegisterFields := by
  unfold Obligations.StatusRegisterFields
  intro s
  have hcode (i : Nat) (hi : 4 ≤ i) : s.err.code.getLsbD i = false := BitVec.getLsbD_of_ge _ _ hi
  refine ⟨?_, ?_, ?_, ?_, fun i hi => ?_, fun rest => rfl, fun rest v => rfl⟩
  · have hlow : (statusWord s).setWidth 4 = s.err.code := by
      refine BitVec.eq_of_getLsbD_eq fun i hi => ?_
      rw [BitVec.getLsbD_setWidth, statusWord_getLsbD]
      simp [hi, show i ≠ 4 by omega, show i ≠ 5 by omega, show i ≠ 6 by omega]
    have := congrArg BitVec.toNat hlow
    rw [BitVec.toNat_setWidth] at this
    exact this.trans (by cases s.err <;> rfl)
  · rw [statusWord_getLsbD, hcode 4 (by decide)]; simp
  · rw [statusWord_getLsbD, hcode 5 (by decide)]; simp
  · rw [statusWord_getLsbD, hcode 6 (by decide)]; simp
  · rw [statusWord_getLsbD, hcode i (by omega)]
    simp [show i ≠ 4 by omega, show i ≠ 5 by omega, show i ≠ 6 by omega]

/-! ## What the host can see (R26) -/

/-- Writing the same bytes to two blocks leaves alike every byte that was alike. -/
theorem State.readByte_writeBytes_congr {s t : State} {c : Nat} (h : s.readByte c = t.readByte c) (a : Nat)
    (bs : List Byte) : (s.writeBytes a bs).readByte c = (t.writeBytes a bs).readByte c := by
  induction bs generalizing s t a with
  | nil => exact h
  | cons b bs ih => exact ih (by rw [State.readByte_writeByte, State.readByte_writeByte, h]) (a + 1)

theorem SeenAlike.readWord {s t : State} (h : SeenAlike s t) {a : Nat} (hlo : 0x100 ≤ a) (hhi : a + 4 ≤ 0x300) :
    s.readWord a = t.readWord a := by
  obtain ⟨-, -, -, -, -, -, -, -, -, -, hbyte, -⟩ := h
  rw [State.readWord, State.readWord, hbyte a (by omega) (by omega), hbyte (a + 1) (by omega) (by omega),
    hbyte (a + 2) (by omega) (by omega), hbyte (a + 3) (by omega) (by omega)]

theorem SeenAlike.statusWord {s t : State} (h : SeenAlike s t) : statusWord s = statusWord t := by
  obtain ⟨hgen, heng, herr, hseen, -⟩ := h
  simp only [Machine.statusWord, hgen, heng, herr, hseen]

theorem busTarget_msgOut {a : BusAddr} (h : busTarget a = .msgOut) : 0x200 ≤ a.toNat ∧ a.toNat < 0x300 := by
  unfold busTarget at h
  split_ifs at h with h₁ h₂ h₃ h₄
  · split at h <;> simp at h
  · omega

/-- CMD is at 0x000 alone (R51). -/
theorem eq_zero_of_busTarget_cmd {a : BusAddr} (h : busTarget a = .cmd) (ha : a.toNat % 4 = 0) : a = 0x000 := by
  unfold busTarget at h
  split_ifs at h
  split at h
  case h_1 hz => exact BitVec.eq_of_toNat_eq (by simp; omega)
  all_goals simp at h

/-- Two blocks that look alike answer every read alike. -/
theorem SeenAlike.busRead {s t : State} (h : SeenAlike s t) (a : BusAddr) (n : Nat) :
    busRead s a n = busRead t a n := by
  unfold Machine.busRead
  split_ifs with hacc
  · obtain ⟨-, halign, -⟩ := (busAccepts_iff a n).1 hacc
    have hword := h.readWord (a := a.toNat)
    have hstatus := h.statusWord
    obtain ⟨-, -, -, -, hresult, hmsglen, hlseed, hltaps, hlo, hhi, -⟩ := h
    unfold readTarget
    cases hb : busTarget a with
    | cmd => rfl
    | status => exact congrArg some hstatus
    | result => exact congrArg some hresult
    | msglen => exact congrArg (fun v => some (v.setWidth 32)) hmsglen
    | lseed => exact congrArg some hlseed
    | ltaps => exact congrArg some hltaps
    | eseedLo => exact congrArg some hlo
    | eseedHi => exact congrArg (fun v => some (v.setWidth 32)) hhi
    | msgIn =>
      obtain ⟨h₁, h₂⟩ := busTarget_msgIn hb
      exact congrArg some (hword (by omega) (by omega))
    | msgOut =>
      obtain ⟨h₁, h₂⟩ := busTarget_msgOut hb
      exact congrArg some (hword (by omega) (by omega))
    | reserved => rfl
  · rfl

/-- The two blocks take the access alike: both complete, and look alike after it, or both refuse it. -/
def AnsweredAlike (x : HostAccess) (c d : BusCycle) : Prop :=
  (∃ s t, c = .done s ∧ d = .done t ∧ SeenAlike s t) ∨ c = .error x ∧ d = .error x

/-- Two blocks that look alike take a write that is no command alike, and look alike after it. -/
theorem SeenAlike.writeTarget {s t : State} (h : SeenAlike s t) (x : HostAccess) {a : BusAddr} (v : Word)
    (hcmd : busTarget a ≠ .cmd) : AnsweredAlike x (writeTarget x s a v) (writeTarget x t a v) := by
  have halike := h
  obtain ⟨hgen, heng, herr, hseen, hresult, hmsglen, hlseed, hltaps, hlo, hhi, hbyte, hpending, hreads⟩ := h
  unfold Machine.writeTarget
  cases hb : busTarget a with
  | cmd => exact absurd hb hcmd
  | status => exact .inl ⟨_, _, rfl, rfl, halike⟩
  | result => exact .inl ⟨_, _, rfl, rfl, halike⟩
  | msglen =>
    exact .inl ⟨_, _, rfl, rfl, hgen, heng, herr, hseen, hresult, rfl, hlseed, hltaps, hlo, hhi, hbyte, hpending,
      hreads⟩
  | lseed =>
    exact .inl ⟨_, _, rfl, rfl, hgen, heng, herr, hseen, hresult, hmsglen, rfl, hltaps, hlo, hhi, hbyte, hpending,
      hreads⟩
  | ltaps =>
    exact .inl ⟨_, _, rfl, rfl, hgen, heng, herr, hseen, hresult, hmsglen, hlseed, rfl, hlo, hhi, hbyte, hpending,
      hreads⟩
  | eseedLo =>
    exact .inl ⟨_, _, rfl, rfl, hgen, heng, herr, hseen, hresult, hmsglen, hlseed, hltaps, rfl, hhi, hbyte, hpending,
      hreads⟩
  | eseedHi =>
    exact .inl ⟨_, _, rfl, rfl, hgen, heng, herr, hseen, hresult, hmsglen, hlseed, hltaps, hlo, rfl, hbyte, hpending,
      hreads⟩
  | msgIn =>
    refine .inl ⟨_, _, rfl, rfl, ?_⟩
    simp only [SeenAlike, State.writeWord_gen, State.writeWord_eng, State.writeWord_err, State.writeWord_errSeen,
      State.writeWord_result, State.writeWord_msglen, State.writeWord_lseed, State.writeWord_ltaps,
      State.writeWord_eseedLo, State.writeWord_eseedHi, State.writeWord_pending, State.writeWord_reads]
    exact ⟨hgen, heng, herr, hseen, hresult, hmsglen, hlseed, hltaps, hlo, hhi,
      fun c hc₁ hc₂ => State.readByte_writeBytes_congr (hbyte c hc₁ hc₂) _ _, hpending, hreads⟩
  | msgOut => exact .inl ⟨_, _, rfl, rfl, halike⟩
  | reserved => exact .inr ⟨rfl, rfl⟩

/-- Two blocks that look alike take every access alike that is no block reset and no CMD write. -/
theorem SeenAlike.busAccess {s t : State} (h : SeenAlike s t) {x : HostAccess} (hreset : x ≠ .reset)
    (hcmd : ∀ v, x ≠ .write 0x000 4 v) : AnsweredAlike x (busAccess s x) (busAccess t x) := by
  cases x with
  | reset => exact absurd rfl hreset
  | read a n =>
    simp only [Machine.busAccess, h.busRead a n]
    cases Machine.busRead t a n with
    | none => exact .inr ⟨rfl, rfl⟩
    | some v =>
      obtain ⟨hgen, heng, herr, hseen, hresult, hmsglen, hlseed, hltaps, hlo, hhi, hbyte, hpending, hreads⟩ := h
      exact .inl ⟨_, _, rfl, rfl, hgen, heng, herr, hseen, hresult, hmsglen, hlseed, hltaps, hlo, hhi, hbyte, hpending,
        congrArg (v :: ·) hreads⟩
  | write a n v =>
    simp only [Machine.busAccess]
    split_ifs with hacc
    · obtain ⟨rfl, halign, -⟩ := (busAccepts_iff a n).1 hacc
      refine h.writeTarget _ v fun hb => hcmd v ?_
      rw [eq_zero_of_busTarget_cmd hb halign]
    · exact .inr ⟨rfl, rfl⟩

theorem step_of_done {s t : State} {x : HostAccess} {rest : List HostAccess}
    (h : busAccess { s with pending := rest } x = .done t) : step { s with pending := x :: rest } = .next t := by
  simp only [step, nextCycle, h]

theorem step_of_error {s : State} {x y : HostAccess} {rest : List HostAccess}
    (h : busAccess { s with pending := rest } x = .error y) :
    step { s with pending := x :: rest } = .fault (.busError y) := by
  simp only [step, nextCycle, h]

/-- Two blocks that look alike still do when the host's coming accesses are the same. -/
theorem SeenAlike.withPending {s t : State} (h : SeenAlike s t) (rest : List HostAccess) :
    SeenAlike { s with pending := rest } { t with pending := rest } := by
  obtain ⟨hgen, heng, herr, hseen, hresult, hmsglen, hlseed, hltaps, hlo, hhi, hbyte, -, hreads⟩ := h
  exact ⟨hgen, heng, herr, hseen, hresult, hmsglen, hlseed, hltaps, hlo, hhi, hbyte, rfl, hreads⟩

/-- Settles O19: a step that is no command is its bus cycle, and two blocks that look alike take the cycle alike. -/
theorem hiddenStateIsNotReadable : Obligations.HiddenStateIsNotReadable := by
  unfold Obligations.HiddenStateIsNotReadable
  intro s t x rest h hreset hcmd
  obtain ⟨s', t', hs, ht, halike⟩ | ⟨hs, ht⟩ := (h.withPending rest).busAccess hreset hcmd
  · exact .inl ⟨s', t', step_of_done hs, step_of_done ht, halike⟩
  · exact .inr ⟨step_of_error hs, step_of_error ht⟩

end Sys2Proof.Machine

/-! SUPPORT. The buffers as little-endian words, and what each access of the host does: which it completes, what a read
returns, what a write leaves (R51 to R57). -/

namespace Sys2Proof.Machine

/-! ## Fields of a word -/

/-- Bits k+n-1..k of a value, by arithmetic. -/
theorem extractLsb'_eq_ofNat {w : Nat} (v : BitVec w) (k n : Nat) :
    v.extractLsb' k n = BitVec.ofNat n (v.toNat / 2 ^ k % 2 ^ n) := by
  refine BitVec.eq_of_toNat_eq ?_
  rw [BitVec.extractLsb'_toNat, BitVec.toNat_ofNat, Nat.shiftRight_eq_div_pow, Nat.mod_mod]

theorem toNat_append_eq_add {m n : Nat} (x : BitVec m) (y : BitVec n) : (x ++ y).toNat = 2 ^ n * x.toNat + y.toNat := by
  rw [BitVec.toNat_append, ← Nat.shiftLeft_add_eq_or_of_lt y.isLt, Nat.shiftLeft_eq, Nat.mul_comm]

/-- A register of `n` bits read as a word has the reserved bits 0. -/
theorem setWidth_extractLsb'_eq_lowBits {n : Nat} (hn : n ≤ 32) (v : Word) :
    (v.extractLsb' 0 n).setWidth 32 = lowBits n v := by
  have hpow : 2 ^ n ≤ 2 ^ 32 := Nat.pow_le_pow_right (by decide) hn
  have hpos : 0 < 2 ^ n := Nat.two_pow_pos n
  refine BitVec.eq_of_toNat_eq ?_
  rw [lowBits, BitVec.toNat_and, BitVec.toNat_ofNat, Nat.mod_eq_of_lt (a := 2 ^ n - 1) (by omega),
    Nat.and_two_pow_sub_one_eq_mod, BitVec.toNat_setWidth_of_le hn, BitVec.extractLsb'_toNat, Nat.shiftRight_zero]

/-! ## Stores that repeat or commute -/

theorem memStore_memStore_same (m : Memory) (a : Nat) (b c : Byte) :
    memStore (memStore m a b) a c = memStore m a c := by
  induction m with
  | nil => simp [memStore]
  | cons x m ih =>
    obtain ⟨k, d⟩ := x
    rcases lt_trichotomy a k with h | rfl | h
    · simp [memStore, h]
    · simp [memStore]
    · simp [memStore, h.not_gt, h.ne', ih]

/-- Stores at two addresses commute, whatever the list: each stops at the first cell that is not below its address. -/
theorem memStore_comm (m : Memory) {a c : Nat} (b d : Byte) (h : a < c) :
    memStore (memStore m a b) c d = memStore (memStore m c d) a b := by
  induction m with
  | nil => simp [memStore, h, h.not_gt, h.ne']
  | cons x m ih =>
    obtain ⟨k, e⟩ := x
    rcases lt_trichotomy a k with hak | rfl | hak
    · rcases lt_trichotomy c k with hck | rfl | hck
      · simp [memStore, hak, hck, h, h.not_gt, h.ne']
      · simp [memStore, h, h.not_gt, h.ne']
      · simp [memStore, hak, hck.not_gt, hck.ne', h.not_gt, h.ne']
    · simp [memStore, h.not_gt, h.ne']
    · have hkc : k < c := hak.trans h
      simp [memStore, hak.not_gt, hak.ne', hkc.not_gt, hkc.ne', ih]

theorem State.writeByte_writeByte_same (s : State) (a : Nat) (b c : Byte) :
    (s.writeByte a b).writeByte a c = s.writeByte a c :=
  congrArg (fun m => { s with buf := m }) (memStore_memStore_same s.buf a b c)

/-- A byte below a run can be written before or after the run. -/
theorem State.writeBytes_writeByte_comm (s : State) {a c : Nat} (b : Byte) (bs : List Byte) (h : c < a) :
    (s.writeByte c b).writeBytes a bs = (s.writeBytes a bs).writeByte c b := by
  induction bs generalizing s a with
  | nil => rfl
  | cons d bs ih =>
    have hswap : (s.writeByte c b).writeByte a d = (s.writeByte a d).writeByte c b :=
      congrArg (fun m => { s with buf := m }) (memStore_comm s.buf b d h)
    rw [State.writeBytes_cons, State.writeBytes_cons, hswap, ih _ (by omega)]

/-- Writing the same run of bytes again changes nothing. -/
theorem State.writeBytes_writeBytes_same (s : State) (a : Nat) (bs : List Byte) :
    (s.writeBytes a bs).writeBytes a bs = s.writeBytes a bs := by
  induction bs generalizing s a with
  | nil => rfl
  | cons b bs ih =>
    rw [State.writeBytes_cons, State.writeBytes_cons, State.writeBytes_writeByte_comm s b bs (Nat.lt_succ_self a),
      State.writeByte_writeByte_same, ← State.writeBytes_writeByte_comm s b bs (Nat.lt_succ_self a), ih]

/-! ## Words in little-endian lanes (R56) -/

/-- The value of a buffer word, the byte at the lowest address in the lowest lane. -/
theorem State.readWord_toNat (s : State) (a : Nat) :
    (s.readWord a).toNat = (s.readByte a).toNat + 2 ^ 8 * (s.readByte (a + 1)).toNat
      + 2 ^ 16 * (s.readByte (a + 2)).toNat + 2 ^ 24 * (s.readByte (a + 3)).toNat := by
  rw [State.readWord, toNat_append_eq_add, toNat_append_eq_add, toNat_append_eq_add]
  omega

/-- Lane `j` of a written word is the byte at offset `j`. -/
theorem State.readByte_writeWord (s : State) (a : Nat) (v : Word) {j : Nat} (hj : j < 4) :
    (s.writeWord a v).readByte (a + j) = BitVec.ofNat 8 (v.toNat / 2 ^ (8 * j) % 2 ^ 8) := by
  rw [State.writeWord, State.readByte_writeBytes_inside s a _ hj, ← extractLsb'_eq_ofNat]
  match j, hj with
  | 0, _ => rfl
  | 1, _ => rfl
  | 2, _ => rfl
  | 3, _ => rfl

theorem State.readByte_writeWord_outside (s : State) (a : Nat) (v : Word) {c : Nat} (h : c < a ∨ a + 4 ≤ c) :
    (s.writeWord a v).readByte c = s.readByte c :=
  State.readByte_writeBytes_outside s a _ h

theorem State.readWord_writeWord (s : State) (a : Nat) (v : Word) : (s.writeWord a v).readWord a = v := by
  refine BitVec.eq_of_toNat_eq ?_
  have h₀ := s.readByte_writeWord a v (j := 0) (by decide)
  rw [Nat.add_zero] at h₀
  rw [State.readWord_toNat, h₀, s.readByte_writeWord a v (by decide), s.readByte_writeWord a v (by decide),
    s.readByte_writeWord a v (by decide)]
  have hv := v.isLt
  simp only [BitVec.toNat_ofNat]
  omega

theorem State.writeWord_writeWord_same (s : State) (a : Nat) (v : Word) :
    (s.writeWord a v).writeWord a v = s.writeWord a v :=
  State.writeBytes_writeBytes_same s a _

/-- The host's coming accesses play no part in a buffer write. -/
theorem State.writeWord_withPending (s : State) (rest : List HostAccess) (a : Nat) (v : Word) :
    State.writeWord { s with pending := rest } a v = { s.writeWord a v with pending := rest } := rfl

theorem State.eq_withPending {s : State} {p : List HostAccess} (h : s.pending = p) : s = { s with pending := p } := by
  subst h
  rfl

/-! ## The address map (R51 to R53) -/

theorem busTarget_eq_msgIn {a : BusAddr} (hlo : 0x100 ≤ a.toNat) (hhi : a.toNat < 0x200) : busTarget a = .msgIn := by
  rw [busTarget, if_neg (by omega), if_neg (by omega), if_pos hhi]

theorem busTarget_eq_msgOut {a : BusAddr} (hlo : 0x200 ≤ a.toNat) (hhi : a.toNat < 0x300) :
    busTarget a = .msgOut := by
  rw [busTarget, if_neg (by omega), if_neg (by omega), if_neg (by omega), if_pos hhi]

/-- The bus accepts the accesses of the statements' ranges, and no others. -/
theorem busAccepts_iff_range (a : BusAddr) (n : Nat) :
    busAccepts a n = true ↔
      n = 4 ∧ a.toNat % 4 = 0 ∧ (a.toNat < 0x020 ∨ 0x100 ≤ a.toNat ∧ a.toNat < 0x300) := by
  rw [busAccepts_iff, Ne, busTarget_reserved_iff]
  omega

theorem busAccepts_of_buffer {a : BusAddr} (halign : a.toNat % 4 = 0) (hlo : 0x100 ≤ a.toNat)
    (hhi : a.toNat < 0x300) : busAccepts a 4 = true :=
  (busAccepts_iff_range a 4).2 ⟨rfl, halign, .inr ⟨hlo, hhi⟩⟩

/-- The aligned addresses of the read-write registers (R54). -/
theorem readWriteRegister_cases {a : BusAddr} (halign : a.toNat % 4 = 0) (hlo : 0x00C ≤ a.toNat)
    (hhi : a.toNat < 0x020) : a = 0x00C ∨ a = 0x010 ∨ a = 0x014 ∨ a = 0x018 ∨ a = 0x01C := by
  simp only [← BitVec.toNat_inj, BitVec.reduceToNat]
  omega

/-! ## What a target answers -/

/-- Every address that is not reserved has data to read. -/
theorem readTarget_of_not_reserved (s : State) {a : BusAddr} (h : busTarget a ≠ .reserved) :
    ∃ v, readTarget s a = some v := by
  unfold readTarget
  cases hb : busTarget a with
  | reserved => exact absurd hb h
  | _ => exact ⟨_, rfl⟩

/-- Every address that is not reserved takes a write: as a command, or whole. -/
theorem writeTarget_of_not_reserved (x : HostAccess) (s : State) {a : BusAddr} (v : Word)
    (h : busTarget a ≠ .reserved) :
    writeTarget x s a v = .command v s ∨ ∃ t, writeTarget x s a v = .done t := by
  unfold writeTarget
  cases hb : busTarget a with
  | reserved => exact absurd hb h
  | cmd => exact .inl rfl
  | _ => exact .inr ⟨_, rfl⟩

theorem writeTarget_msgIn (x : HostAccess) (s : State) {a : BusAddr} (v : Word) (hlo : 0x100 ≤ a.toNat)
    (hhi : a.toNat < 0x200) : writeTarget x s a v = .done (s.writeWord a.toNat v) := by
  rw [writeTarget, busTarget_eq_msgIn hlo hhi]

theorem writeTarget_msgOut (x : HostAccess) (s : State) {a : BusAddr} (v : Word) (hlo : 0x200 ≤ a.toNat)
    (hhi : a.toNat < 0x300) : writeTarget x s a v = .done s := by
  rw [writeTarget, busTarget_eq_msgOut hlo hhi]

theorem readTarget_buffer (s : State) {a : BusAddr} (hlo : 0x100 ≤ a.toNat) (hhi : a.toNat < 0x300) :
    readTarget s a = some (s.readWord a.toNat) := by
  obtain h | h := Nat.lt_or_ge a.toNat 0x200
  · rw [readTarget, busTarget_eq_msgIn hlo h]
  · rw [readTarget, busTarget_eq_msgOut h hhi]

/-- A write that is no command leaves both buffers, or writes a word of MSGIN. -/
theorem writeTarget_done_buf {x : HostAccess} {s t : State} {a : BusAddr} {v : Word}
    (h : writeTarget x s a v = .done t) :
    t.buf = s.buf ∨ (0x100 ≤ a.toNat ∧ a.toNat < 0x200 ∧ t = s.writeWord a.toNat v) := by
  unfold writeTarget at h
  cases hb : busTarget a with
  | msgIn =>
    obtain ⟨hlo, hhi⟩ := busTarget_msgIn hb
    simp only [hb, BusCycle.done.injEq] at h
    exact .inr ⟨hlo, hhi, h.symm⟩
  | cmd => simp [hb] at h
  | reserved => simp [hb] at h
  | _ => simp only [hb, BusCycle.done.injEq] at h; subst h; exact .inl rfl

/-- What a write made of its target, the same write makes of it again, whatever accesses come after. -/
theorem writeTarget_again {x : HostAccess} {s t : State} {a : BusAddr} {v : Word} (h : writeTarget x s a v = .done t)
    (rest : List HostAccess) :
    writeTarget x { t with pending := rest } a v = writeTarget x { s with pending := rest } a v := by
  unfold writeTarget at h ⊢
  cases hb : busTarget a with
  | msgIn =>
    simp only [hb, BusCycle.done.injEq] at h ⊢
    subst h
    rw [← State.writeWord_withPending, State.writeWord_writeWord_same]
  | cmd => simp [hb] at h
  | reserved => rfl
  | _ => simp only [hb, BusCycle.done.injEq] at h ⊢; subst h; rfl

/-! ## The cases of an access -/

theorem busAccess_read_done_iff (s t : State) (a : BusAddr) (n : Nat) :
    busAccess s (.read a n) = .done t ↔
      ∃ v, busAccepts a n = true ∧ readTarget s a = some v ∧ t = { s with reads := v :: s.reads } := by
  simp only [busAccess, busRead]
  by_cases hacc : busAccepts a n = true
  · cases hv : readTarget s a <;> simp [hacc, eq_comm]
  · simp [hacc]

theorem busAccess_write_done_iff (s t : State) (a : BusAddr) (n : Nat) (v : Word) :
    busAccess s (.write a n v) = .done t ↔ busAccepts a n = true ∧ writeTarget (.write a n v) s a v = .done t := by
  simp only [busAccess]
  split_ifs with h <;> simp [h]

/-- A write that is no command, done again, leaves the state as done once (R55). -/
theorem busAccess_write_again {s t : State} {a : BusAddr} {n : Nat} {v : Word}
    (h : busAccess s (.write a n v) = .done t) (rest : List HostAccess) :
    busAccess { t with pending := rest } (.write a n v) = busAccess { s with pending := rest } (.write a n v) := by
  obtain ⟨hacc, hw⟩ := (busAccess_write_done_iff s t a n v).1 h
  simp only [busAccess, if_pos hacc]
  exact writeTarget_again hw rest

/-- An access of the allowed form completes, or is a command (R52 to R54). -/
theorem busAccess_of_allowed (s : State) {x : HostAccess} (h : x.allowed) :
    (∃ w, busAccess s x = .command w s) ∨ ∃ t, busAccess s x = .done t := by
  cases x with
  | reset => exact .inr ⟨_, rfl⟩
  | read a n =>
    have hacc := (busAccepts_iff_range a n).2 h
    obtain ⟨v, hv⟩ := readTarget_of_not_reserved s ((busAccepts_iff a n).1 hacc).2.2
    exact .inr ⟨_, (busAccess_read_done_iff s _ a n).2 ⟨v, hacc, hv, rfl⟩⟩
  | write a n v =>
    have hacc := (busAccepts_iff_range a n).2 h
    simp only [busAccess, hacc, if_true]
    obtain hw | hw := writeTarget_of_not_reserved (.write a n v) s v ((busAccepts_iff a n).1 hacc).2.2
    · exact .inl ⟨v, hw⟩
    · exact .inr hw

/-- Every other access is refused (R52, R53). -/
theorem busAccess_of_not_allowed (s : State) {x : HostAccess} (h : ¬ x.allowed) : busAccess s x = .error x := by
  cases x with
  | reset => exact absurd trivial h
  | read a n =>
    have hacc := mt (busAccepts_iff_range a n).1 h
    simp only [busAccess, busRead, if_neg hacc]
  | write a n v =>
    have hacc := mt (busAccepts_iff_range a n).1 h
    simp only [busAccess, if_neg hacc]

/-- A command is a CMD write of its word, run on the state it found (R27, R81). -/
theorem eq_write_of_busAccess_command {x : HostAccess} {s u : State} {w : Word} (h : busAccess s x = .command w u) :
    x = .write 0x000 4 w ∧ u = s := by
  refine ⟨?_, busAccess_command h⟩
  cases x with
  | reset => simp [busAccess] at h
  | read a n => cases hr : busRead s a n <;> simp [busAccess, hr] at h
  | write a n v =>
    simp only [busAccess] at h
    split_ifs at h with hacc
    obtain ⟨rfl, halign, -⟩ := (busAccepts_iff a n).1 hacc
    obtain ⟨hb, rfl, -⟩ := writeTarget_command h
    rw [eq_zero_of_busTarget_cmd hb halign]

/-! ## The step at an access -/

/-- Two blocks that the access leaves alike step alike. -/
theorem step_congr {s t : State} {x : HostAccess} {rest : List HostAccess}
    (h : busAccess { t with pending := rest } x = busAccess { s with pending := rest } x) :
    step { t with pending := x :: rest } = step { s with pending := x :: rest } := by
  simp only [step, nextCycle, h]

/-- All that a step at an access can do: the access completes, or it is a command or an illegal word. -/
theorem step_access_next {s t : State} {x : HostAccess} {rest : List HostAccess}
    (h : step { s with pending := x :: rest } = .next t) :
    busAccess { s with pending := rest } x = .done t ∨
      ∃ w, x = .write 0x000 4 w ∧
        ((∃ i, decode w = .ok i ∧ exec i { s with pending := rest } = .next t) ∨
          t = { s with pending := rest, err := .illegal, errSeen := true }) := by
  obtain ⟨hnil, -⟩ | ⟨y, ys, hcons, h⟩ := step_next h
  · exact absurd hnil (List.cons_ne_nil x rest)
  · obtain ⟨rfl, rfl⟩ := List.cons.inj hcons
    obtain hdone | ⟨w, u, hcmd, hrun⟩ := h
    · exact .inl hdone
    · obtain ⟨hx, rfl⟩ := eq_write_of_busAccess_command hcmd
      obtain hexec | ⟨r, -, hill⟩ := hrun
      · exact .inr ⟨w, hx, .inl hexec⟩
      · exact .inr ⟨w, hx, .inr hill⟩

/-- A read that the bus accepts returns the target's data and changes nothing else (R54, R55). -/
theorem step_read {s : State} {a : BusAddr} {v : Word} (hacc : busAccepts a 4 = true) (hv : readTarget s a = some v)
    (rest : List HostAccess) :
    step { s with pending := .read a 4 :: rest } = .next { s with pending := rest, reads := v :: s.reads } :=
  step_of_done ((busAccess_read_done_iff _ _ a 4).2 ⟨v, hacc, hv, rfl⟩)

theorem step_read_next {s t : State} {a : BusAddr} {n : Nat} {rest : List HostAccess}
    (h : step { s with pending := .read a n :: rest } = .next t) :
    ∃ v, n = 4 ∧ busAccepts a 4 = true ∧ readTarget s a = some v ∧
      t = { s with pending := rest, reads := v :: s.reads } := by
  obtain hdone | ⟨w, hx, -⟩ := step_access_next h
  · obtain ⟨v, hacc, hv, rfl⟩ := (busAccess_read_done_iff _ _ a n).1 hdone
    obtain ⟨rfl, -⟩ := (busAccepts_iff a n).1 hacc
    exact ⟨v, rfl, hacc, hv, rfl⟩
  · cases hx

/-- A write that the bus accepts, at an address that is not CMD, leaves what the target makes of it (R54). -/
theorem step_write {s t : State} {a : BusAddr} {v : Word} {rest : List HostAccess} (hacc : busAccepts a 4 = true)
    (hw : writeTarget (.write a 4 v) { s with pending := rest } a v = .done t) :
    step { s with pending := .write a 4 v :: rest } = .next t :=
  step_of_done ((busAccess_write_done_iff _ _ a 4 v).2 ⟨hacc, hw⟩)

/-- A write and a read of the same address: the read returns what the target then holds (R60). -/
theorem step_write_read {s t : State} {a : BusAddr} {v d : Word} {rest : List HostAccess}
    (hacc : busAccepts a 4 = true)
    (hw : writeTarget (.write a 4 v) { s with pending := .read a 4 :: rest } a v = .done t)
    (hd : readTarget t a = some d) :
    ∃ t u, step { s with pending := .write a 4 v :: .read a 4 :: rest } = .next t ∧ step t = .next u ∧
      u.pending = rest ∧ u.reads = d :: s.reads := by
  obtain ⟨-, -, -, -, -, -, -, hpending, hreads⟩ := writeTarget_done hw
  have hread := (congrArg step (State.eq_withPending hpending)).trans (step_read hacc hd rest)
  exact ⟨t, _, step_write hacc hw, hread, rfl, congrArg (d :: ·) hreads⟩

/-- An access that completes and is no block reset leaves both units, ERR and ERRSEEN (R54). -/
theorem busAccess_done_units {x : HostAccess} {s t : State} (h : busAccess s x = .done t) (hreset : x ≠ .reset) :
    t.gen = s.gen ∧ t.eng = s.eng ∧ t.err = s.err ∧ t.errSeen = s.errSeen := by
  cases x with
  | reset => exact absurd rfl hreset
  | read a n =>
    obtain ⟨v, -, -, rfl⟩ := (busAccess_read_done_iff _ _ a n).1 h
    exact ⟨rfl, rfl, rfl, rfl⟩
  | write a n v =>
    obtain ⟨hgen, heng, herr, hseen, -⟩ := writeTarget_done ((busAccess_write_done_iff _ _ a n v).1 h).2
    exact ⟨hgen, heng, herr, hseen⟩

/-- An access that completes changes a buffer byte only as a block reset or as a write of a word of MSGIN, which stays
below MSGOUT (R56, R57). -/
theorem busAccess_done_readByte {x : HostAccess} {s t : State} (h : busAccess s x = .done t) {c : Nat}
    (hc : t.readByte c ≠ s.readByte c) :
    x = .reset ∨ ∃ a v, x = .write a 4 v ∧ 0x100 ≤ a.toNat ∧ a.toNat < 0x200 ∧ c < 0x200 := by
  cases x with
  | reset => exact .inl rfl
  | read a n =>
    obtain ⟨v, -, -, rfl⟩ := (busAccess_read_done_iff _ _ a n).1 h
    exact absurd rfl hc
  | write a n v =>
    obtain ⟨hacc, hw⟩ := (busAccess_write_done_iff _ _ a n v).1 h
    obtain ⟨rfl, halign, -⟩ := (busAccepts_iff a n).1 hacc
    obtain hbuf | ⟨hlo, hhi, rfl⟩ := writeTarget_done_buf hw
    · obtain ⟨-, -, -, -, -, -, hresets, -⟩ := writeTarget_done hw
      exact absurd (State.readByte_congr hbuf hresets c) hc
    · have hin : ¬ (c < a.toNat ∨ a.toNat + 4 ≤ c) := mt (s.readByte_writeWord_outside a.toNat v) hc
      exact .inr ⟨a, v, rfl, hlo, hhi, by omega⟩

/-! ## Commands: they complete, and ETRN's own stores -/

theorem whenReady_completes (v : Bool) (s : State) {body : Answer} (h : ∃ t, body = .next t) :
    ∃ t, whenReady v s body = .next t := by
  cases v with
  | true => exact h
  | false => exact ⟨_, rfl⟩

/-- Every command completes, with success or with a code (R160). -/
theorem exec_completes (i : Instr) (s : State) : ∃ t, exec i s = .next t := by
  cases i with
  | lcfg a b =>
    show ∃ t, execLcfg a b s = .next t
    unfold execLcfg
    split_ifs <;> exact ⟨_, rfl⟩
  | lseq k =>
    show ∃ t, execLseq k s = .next t
    rw [execLseq_eq]
    refine whenReady_completes _ s ?_
    split_ifs <;> exact ⟨_, rfl⟩
  | eload n =>
    show ∃ t, execEload n s = .next t
    unfold execEload
    split_ifs <;> exact ⟨_, rfl⟩
  | etrn =>
    show ∃ t, execEtrn s = .next t
    rw [execEtrn_eq]
    refine whenReady_completes _ s ?_
    split_ifs
    · exact ⟨_, rfl⟩
    · exact ⟨_, rfl⟩
    · cases hexVals s.params s.msgBody <;> exact ⟨_, rfl⟩
  | _ => exact whenReady_completes _ s ⟨_, rfl⟩

/-- A CMD write of any word completes (R160). -/
theorem step_command_completes (s : State) (w : Word) (rest : List HostAccess) :
    ∃ t, step { s with pending := .write 0x000 4 w :: rest } = .next t := by
  cases hd : decode w with
  | ok i =>
    obtain ⟨t, ht⟩ := exec_completes i { s with pending := rest }
    exact ⟨t, (step_of_decode_ok hd s rest).trans ht⟩
  | error r => exact ⟨_, step_of_decode_error hd s rest⟩

/-- ETRN has one word: its mask leaves no bit free (R74). -/
theorem eq_of_decode_etrn {w : Word} (h : decode w = .ok .etrn) : w = 0x0000000C := by
  unfold decode at h
  split at h
  case h_12 =>
    obtain ⟨hw, -⟩ := (rowOf_ok_iff _ _ _ _ _).1 h
    exact (BitVec.and_allOnes (x := w)).symm.trans hw
  all_goals simp [rowOf_ok_iff] at h

/-- ETRN stores MSGLEN bytes, so no byte of MSGOUT from there on changes (R146). -/
theorem execEtrn_readByte_above {s t : State} (h : execEtrn s = .next t) {a : Nat}
    (ha : msgOutAddr s.msglen.toNat ≤ a) : t.readByte a = s.readByte a := by
  obtain ⟨c, -, rfl⟩ | ⟨ds, -, hlo, -, -, hlen, rfl⟩ := execEtrn_next h
  · rfl
  · have hout := (transformNibbles_frame s.params { s.eng with carry := false } ds).1
    refine State.readByte_writeBytes_outside s (msgOutAddr 0) _ (.inr ?_)
    simp only [List.length_cons, List.length_map, hout, msgOutAddr] at ha ⊢
    omega

/-- A command that changes a byte of MSGOUT is ETRN, and the byte is below MSGLEN (R57, R146). -/
theorem exec_msgOut_changed {i : Instr} {s t : State} (h : exec i s = .next t) {k : Nat}
    (hk : t.msgOut k ≠ s.msgOut k) : i = .etrn ∧ k < s.msglen.toNat := by
  have hi : i = .etrn := by_contra fun hi => hk (exec_readByte h hi _)
  subst hi
  refine ⟨rfl, by_contra fun hlen => hk (execEtrn_readByte_above h ?_)⟩
  unfold msgOutAddr
  omega

/-- LNXT on a configured unit is one step of the register (R103). -/
theorem exec_lnxt_of_valid {s : State} (h : s.gen.valid = true) :
    exec .lnxt s = .next
      { s with
        gen := { s.gen with state := (lfsrStep s.gen.state s.gen.taps s.gen.n.toNat).1 }
        result := (BitVec.ofBool (lfsrStep s.gen.state s.gen.taps s.gen.n.toNat).2).setWidth 32
        err := .none } := by
  refine (execLnxt_eq s).trans ?_
  rw [h, whenReady_true, succeed]

end Sys2Proof.Machine

/-! SUPPORT. The memory map and the host bus: which accesses complete, what they do, and who changes the buffers (O7,
O14 to O18). -/

namespace Sys2Proof.Machine

/-- Settles O7: an allowed access completes or runs a command, which completes; any other the bus refuses. -/
theorem onlyRefusedAccessesFault : Obligations.OnlyRefusedAccessesFault := by
  unfold Obligations.OnlyRefusedAccessesFault
  refine fun s x rest => ⟨fun h => ?_, fun h => step_of_error (busAccess_of_not_allowed _ h)⟩
  obtain ⟨w, hcmd⟩ | ⟨t, hdone⟩ := busAccess_of_allowed { s with pending := rest } h
  · obtain ⟨rfl, -⟩ := eq_write_of_busAccess_command hcmd
    exact step_command_completes s w rest
  · exact ⟨t, step_of_done hdone⟩

/-- Settles O14: each address by the rule for an accepted read or write, and the frame of the accesses that are no
command. -/
theorem effectsOfDefinedAddresses : Obligations.EffectsOfDefinedAddresses := by
  unfold Obligations.EffectsOfDefinedAddresses
  refine ⟨fun s rest => ?_, fun s rest v => ?_, fun s rest a v halign => ⟨fun hlo hhi => ?_, fun hlo hhi => ?_,
    fun hlo hhi => ?_⟩, fun s t rest x hreset hcmd h => ?_⟩
  · rw [BitVec.ofNat_toNat, BitVec.ofNat_toNat]
    exact ⟨step_read (by decide) rfl rest, step_read (by decide) rfl rest, step_read (by decide) rfl rest,
      step_read (by decide) rfl rest, step_read (by decide) rfl rest, step_read (by decide) rfl rest,
      step_read (by decide) rfl rest, step_read (by decide) rfl rest⟩
  · have hmsglen : v.extractLsb' 0 16 = BitVec.ofNat 16 (v.toNat % 2 ^ 16) := by
      rw [extractLsb'_eq_ofNat, Nat.pow_zero, Nat.div_one]
    have heseedHi : v.extractLsb' 0 8 = BitVec.ofNat 8 (v.toNat % 2 ^ 8) := by
      rw [extractLsb'_eq_ofNat, Nat.pow_zero, Nat.div_one]
    rw [← hmsglen, ← heseedHi]
    exact ⟨step_write (by decide) rfl, step_write (by decide) rfl, step_write (by decide) rfl,
      step_write (by decide) rfl, step_write (by decide) rfl, step_write (by decide) rfl,
      step_write (by decide) rfl⟩
  · exact step_read (busAccepts_of_buffer halign hlo hhi) (readTarget_buffer s hlo hhi) rest
  · exact step_write (busAccepts_of_buffer halign hlo (by omega)) (writeTarget_msgIn _ _ v hlo hhi)
  · exact step_write (busAccepts_of_buffer halign (by omega) hhi) (writeTarget_msgOut _ _ v hlo hhi)
  · obtain hdone | ⟨w, hx, -⟩ := step_access_next h
    · obtain ⟨hgen, heng, herr, hseen⟩ := busAccess_done_units hdone hreset
      exact ⟨hgen, heng, by simp only [statusWord, hgen, heng, herr, hseen]⟩
    · exact absurd hx (hcmd w)

/-- Settles O15: the second read and the second write find the target as the first did; LNXT is two steps. -/
theorem readsRepeatAndWritesAreIdempotent : Obligations.ReadsRepeatAndWritesAreIdempotent := by
  unfold Obligations.ReadsRepeatAndWritesAreIdempotent
  refine ⟨fun s t a n rest h => ?_, fun s t a n v rest ha h => ?_, fun s hv => ?_⟩
  · obtain ⟨v, rfl, hacc, hv, rfl⟩ := step_read_next h
    exact ⟨v, rfl, step_read (s := { s with reads := v :: s.reads }) hacc hv rest⟩
  · obtain hdone | ⟨w, hx, -⟩ := step_access_next h
    · obtain ⟨-, hw⟩ := (busAccess_write_done_iff _ _ a n v).1 hdone
      obtain ⟨-, -, -, -, -, -, -, hpending, -⟩ := writeTarget_done hw
      exact (congrArg step (State.eq_withPending hpending)).trans (step_congr (busAccess_write_again hdone rest))
    · cases hx
      exact absurd ha (by decide)
  · exact ⟨_, _, exec_lnxt_of_valid hv, exec_lnxt_of_valid hv, rfl⟩

/-- Settles O16: the value of a buffer word, and the lanes and the frame of a written one. -/
theorem bufferWordsAreLittleEndian : Obligations.BufferWordsAreLittleEndian := by
  unfold Obligations.BufferWordsAreLittleEndian
  refine ⟨fun s rest a halign hlo hhi => ?_, fun s rest a v halign hlo hhi => ?_⟩
  · exact ⟨s.readWord a.toNat,
      step_read (busAccepts_of_buffer halign hlo hhi) (readTarget_buffer s hlo hhi) rest, s.readWord_toNat a.toNat⟩
  · exact ⟨_, step_write (busAccepts_of_buffer halign hlo (by omega)) (writeTarget_msgIn _ _ v hlo hhi),
      State.writeBytes_eq _ _ _, fun j hj => State.readByte_writeWord _ _ v hj,
      fun c hc => State.readByte_writeWord_outside _ _ v hc⟩

/-- Settles O17: each read-write register and each word of MSGIN holds what the write left of the datum. -/
theorem readReturnsTheLastWrite : Obligations.ReadReturnsTheLastWrite := by
  unfold Obligations.ReadReturnsTheLastWrite
  intro s a v rest halign hrange
  obtain ⟨hlo, hhi⟩ | ⟨hlo, hhi⟩ := hrange
  · obtain rfl | rfl | rfl | rfl | rfl := readWriteRegister_cases halign hlo hhi
    · exact step_write_read (by decide) rfl (congrArg some (setWidth_extractLsb'_eq_lowBits (by decide) v))
    · exact step_write_read (by decide) rfl rfl
    · exact step_write_read (by decide) rfl rfl
    · exact step_write_read (by decide) rfl rfl
    · exact step_write_read (by decide) rfl (congrArg some (setWidth_extractLsb'_eq_lowBits (by decide) v))
  · have hne (r : BusAddr) (hr : r.toNat < 0x100) : a ≠ r := by rintro rfl; omega
    rw [if_neg (hne 0x00C (by decide)), if_neg (hne 0x01C (by decide))]
    refine step_write_read (busAccepts_of_buffer halign hlo (by omega)) (writeTarget_msgIn _ _ v hlo hhi) ?_
    rw [readTarget_buffer _ hlo (by omega), State.readWord_writeWord]

/-- Settles O18: by the cases of a step, what an access that completes and what a command can change of a buffer. -/
theorem whoChangesTheBuffers : Obligations.WhoChangesTheBuffers := by
  unfold Obligations.WhoChangesTheBuffers
  refine ⟨fun s t x rest k hk h hne => ?_, fun s t x rest k hk h hne => ?_⟩
  · obtain hdone | ⟨w, -, ⟨i, -, hexec⟩ | rfl⟩ := step_access_next h
    · obtain hx | ⟨a, v, hx, hlo, hhi, -⟩ := busAccess_done_readByte hdone hne
      · exact .inl hx
      · exact .inr ⟨a, v, hx, hlo, hhi⟩
    · exact absurd (exec_msgIn hexec hk) hne
    · exact absurd rfl hne
  · obtain hdone | ⟨w, rfl, ⟨i, hd, hexec⟩ | rfl⟩ := step_access_next h
    · obtain hx | ⟨a, v, -, -, -, hlt⟩ := busAccess_done_readByte hdone hne
      · exact .inl hx
      · exact absurd hlt (by unfold msgOutAddr; omega)
    · obtain ⟨rfl, hlen⟩ := exec_msgOut_changed hexec hne
      exact .inr ⟨by rw [eq_of_decode_etrn hd], hlen⟩
    · exact absurd rfl hne

end Sys2Proof.Machine

/-! SUPPORT. The encoding: a word that decodes to a command is that command's word, and a word is illegal exactly when
it fails the row of its opcode (O1 to O3). -/

namespace Sys2Proof.Machine

/-! ## Words from their fields (R71) -/

/-- The five fields of R71 are the whole word. -/
theorem assembleFields_eq_iff (op : BitVec 4) (a b : BitVec 6) (d : Byte) (w : Word) :
    assembleFields op a b d = w ↔
      fieldOp w = op ∧ fieldA w = a ∧ fieldB w = b ∧ fieldD w = d ∧ w.extractLsb' 24 8 = 0 := by
  constructor
  · rintro rfl
    obtain ⟨hop, hr⟩ := Laws.assembleFields_fields op a b d
    exact ⟨hop, fieldA_assembleFields op a b d, fieldB_assembleFields op a b d, fieldD_assembleFields op a b d, hr⟩
  · rintro ⟨rfl, rfl, rfl, rfl, hr⟩
    have hhigh (i : Nat) (h24 : 24 ≤ i) (h32 : i < 32) : w.getLsbD i = false := by
      have := congrArg (·.getLsbD (i - 24)) hr
      simpa [show i - 24 < 8 by omega, Nat.add_sub_cancel' h24] using this
    refine BitVec.eq_of_getLsbD_eq fun i hi => ?_
    simp only [assembleFields_getLsbD, fieldOp, fieldA, fieldB, fieldD, BitVec.getLsbD_extractLsb']
    grind

/-- A field that the mask keeps whole has the pattern's value in every word that matches the row (R74). -/
theorem extractLsb'_of_and_eq {w mask pattern : Word} {k n : Nat} {v : BitVec n} (h : w &&& mask = pattern)
    (hmask : mask.extractLsb' k n = BitVec.allOnes n) (hpattern : pattern.extractLsb' k n = v) :
    w.extractLsb' k n = v := by
  rw [← hpattern, ← h, BitVec.extractLsb'_and, hmask, BitVec.and_allOnes]

/-! ## Encoding what a word decodes to (R72, R74) -/

/-- A word that matches a row is built from its fields again, if each field is taken from it as an operand or kept whole
by the mask. -/
theorem assembleFields_of_row {w mask pattern : Word} {op : BitVec 4} {a b : BitVec 6} {d : Byte}
    (hw : w &&& mask = pattern) (hop : fieldOp mask = BitVec.allOnes 4 ∧ fieldOp pattern = op)
    (ha : fieldA w = a ∨ fieldA mask = BitVec.allOnes 6 ∧ fieldA pattern = a)
    (hb : fieldB w = b ∨ fieldB mask = BitVec.allOnes 6 ∧ fieldB pattern = b)
    (hd : fieldD w = d ∨ fieldD mask = BitVec.allOnes 8 ∧ fieldD pattern = d)
    (hr : mask.extractLsb' 24 8 = BitVec.allOnes 8 ∧ pattern.extractLsb' 24 8 = 0) :
    assembleFields op a b d = w := by
  have fixed {k n : Nat} {v : BitVec n}
      (h : mask.extractLsb' k n = BitVec.allOnes n ∧ pattern.extractLsb' k n = v) : w.extractLsb' k n = v :=
    extractLsb'_of_and_eq hw h.1 h.2
  exact (assembleFields_eq_iff op a b d w).2
    ⟨fixed hop, ha.elim id fixed, hb.elim id fixed, hd.elim id fixed, fixed hr⟩

/-- EXN's mask keeps D[7:4], and its pattern has 0 there (R72, R74). -/
theorem exn_wf_of_row {w : Word} (hw : w &&& 0xFFF0FFFF = 0x0000000B) : (Instr.exn (fieldD w)).wf = true := by
  have hhigh : w.extractLsb' 20 4 = 0 := extractLsb'_of_and_eq hw (by decide) (by decide)
  rw [Instr.wf, beq_iff_eq, ← hhigh, fieldD]
  refine BitVec.eq_of_getLsbD_eq fun j hj => ?_
  simp [hj, show 4 + j < 8 by omega, ← Nat.add_assoc]

/-- No bit of a word that decodes is dropped: each is in an operand, or the pattern of its row fixes it. -/
theorem encode_of_decode {w : Word} {i : Instr} (h : decode w = .ok i) : i.wf = true ∧ encode i = w := by
  unfold decode at h
  split at h
  case h_13 => cases h
  all_goals obtain ⟨hw, rfl⟩ := (rowOf_ok_iff _ _ _ _ _).1 h
  case h_1 =>
    exact ⟨rfl, assembleFields_of_row hw (by decide) (.inl rfl) (.inl rfl) (.inr (by decide)) (by decide)⟩
  case h_4 | h_5 =>
    exact ⟨rfl, assembleFields_of_row hw (by decide) (.inl rfl) (.inr (by decide)) (.inr (by decide)) (by decide)⟩
  case h_10 =>
    exact ⟨rfl, assembleFields_of_row hw (by decide) (.inr (by decide)) (.inr (by decide)) (.inl rfl) (by decide)⟩
  case h_11 =>
    exact ⟨exn_wf_of_row hw,
      assembleFields_of_row hw (by decide) (.inr (by decide)) (.inr (by decide)) (.inl rfl) (by decide)⟩
  all_goals exact ⟨rfl,
    assembleFields_of_row hw (by decide) (.inr (by decide)) (.inr (by decide)) (.inr (by decide)) (by decide)⟩

/-- A word decodes to a command exactly if it is the word of that command (R72, R74). -/
theorem decode_eq_ok_iff (w : Word) (i : Instr) : decode w = .ok i ↔ i.wf = true ∧ encode i = w := by
  refine ⟨encode_of_decode, ?_⟩
  rintro ⟨hi, rfl⟩
  exact decode_encode hi

/-! ## The row of a word (R74 to R76) -/

theorem fieldOp_toNat (w : Word) : (fieldOp w).toNat = w.toNat % 16 := by
  simp [fieldOp, BitVec.extractLsb'_toNat]

/-- All that the decoder can answer: the opcode is reserved, or its one row decides. -/
theorem decode_cases (w : Word) :
    (rowMask (w.toNat % 16) = none ∧ decode w = .error .reservedOpcode) ∨
      ∃ mask pattern i, rowMask (w.toNat % 16) = some (mask, pattern) ∧ decode w = rowOf mask pattern w i := by
  rw [← fieldOp_toNat, decode]
  split
  case h_13 => exact .inl ⟨by unfold rowMask; split <;> simp_all, rfl⟩
  all_goals
    rename_i hop
    rw [hop]
    exact .inr ⟨_, _, _, rfl, rfl⟩

/-- The reserved opcodes (R76). -/
theorem rowMask_eq_none_iff {op : Nat} (h : op < 16) :
    rowMask op = none ↔ op = 0x0 ∨ op = 0xD ∨ op = 0xE ∨ op = 0xF := by
  revert op
  decide

theorem legalWord_of_reserved {w : Word} (h : rowMask (w.toNat % 16) = none) : legalWord w = false := by
  simp [legalWord, h]

theorem legalWord_iff_of_row {w mask pattern : Word} (h : rowMask (w.toNat % 16) = some (mask, pattern)) :
    legalWord w = true ↔ w &&& mask = pattern := by
  simp [legalWord, h]

theorem decode_ok_iff_legalWord (w : Word) : (∃ i, decode w = .ok i) ↔ legalWord w = true := by
  obtain ⟨hrow, hd⟩ | ⟨mask, pattern, i, hrow, hd⟩ := decode_cases w
  · simp [hd, legalWord_of_reserved hrow]
  · simp [hd, rowOf_ok_iff, legalWord_iff_of_row hrow]

theorem decode_reservedOpcode_iff (w : Word) :
    decode w = .error .reservedOpcode ↔ rowMask (w.toNat % 16) = none := by
  obtain ⟨hrow, hd⟩ | ⟨mask, pattern, i, hrow, hd⟩ := decode_cases w
  · simp [hrow, hd]
  · simp [hrow, hd, rowOf_error_iff]

theorem decode_unusedBitSet_iff (w : Word) :
    decode w = .error .unusedBitSet ↔
      ∃ mask pattern, rowMask (w.toNat % 16) = some (mask, pattern) ∧ w &&& mask ≠ pattern := by
  obtain ⟨hrow, hd⟩ | ⟨mask, pattern, i, hrow, hd⟩ := decode_cases w
  · simp [hrow, hd]
  · simp [hrow, hd, rowOf_error_iff]

/-! ## The obligations -/

/-- Settles O1: each direction is one half of "a word decodes to a command exactly if it is its word". -/
theorem decodeAndEncodeAgree : Obligations.DecodeAndEncodeAgree := by
  unfold Obligations.DecodeAndEncodeAgree
  exact ⟨fun _ => decode_encode, fun _ _ => encode_of_decode⟩

/-- Settles O2: the decoder's answer is that of the row of the opcode, and a rejected word raises ILLEGAL. -/
theorem otherWordsAreIllegal : Obligations.OtherWordsAreIllegal := by
  unfold Obligations.OtherWordsAreIllegal
  refine ⟨decode_ok_iff_legalWord, fun w => ?_, decode_unusedBitSet_iff,
    fun w r s rest hw => step_of_decode_error hw s rest, by decide⟩
  exact (decode_reservedOpcode_iff w).trans (rowMask_eq_none_iff (Nat.mod_lt _ (by decide)))

/-- Settles O3: each word of the table is the word of its command, and the illegal ones the decoder rejects. -/
theorem commonCommandWords : Obligations.CommonCommandWords := by
  unfold Obligations.CommonCommandWords
  simp only [decode_eq_ok_iff]
  decide

end Sys2Proof.Machine

/-! SUPPORT. The LFSR step and its runs: the feedback bit as a parity, the source's bit lists, and what the drawn bits
are (O22 to O24). -/

namespace Sys2Proof.Machine

/-! ## The feedback bit (R11, R100) -/

/-- Counting the set bits and XORing them agree mod 2. -/
theorem oddBits_eq_parity {w : Nat} (v : BitVec w) : oddBits v = parity v := by
  have hcount (n : Nat) :
      decide (((List.range n).countP fun i => v.getLsbD i) % 2 = 1) = parityBelow v n := by
    induction n with
    | zero => rfl
    | succ n ih =>
      rw [List.range_succ, List.countP_append, List.countP_singleton, parityBelow, ← ih]
      cases v.getLsbD n <;> grind
  exact hcount w

/-- Bits at or above `n` that are 0 have no part in the parity. -/
theorem parityBelow_of_fitsIn {w n m : Nat} {v : BitVec w} (hv : fitsIn n v) (hm : n ≤ m) :
    parityBelow v m = parityBelow v n := by
  induction m, hm using Nat.le_induction with
  | base => rfl
  | succ m hm ih => rw [parityBelow, hv m hm, Bool.false_xor, ih]

@[simp] theorem parity_zero {w : Nat} : parity 0#w = false :=
  parityBelow_of_fitsIn (n := 0) (fun _ _ => BitVec.getLsbD_zero) (Nat.zero_le w)

theorem fitsIn_and {w n : Nat} {S : BitVec w} (T : BitVec w) (hS : fitsIn n S) : fitsIn n (S &&& T) := fun i hi => by
  rw [BitVec.getLsbD_and, hS i hi, Bool.false_and]

/-- The register after a step, bit by bit, within its word (R100). -/
theorem lfsrStep_getLsbD_of_lt {w N i : Nat} (S T : BitVec w) (hN : 1 ≤ N) (hi : i < w) :
    (lfsrStep S T N).1.getLsbD i = (S.getLsbD (i + 1) || (decide (i = N - 1) && parity (S &&& T))) := by
  have htop : (i < w ∧ i + 1 = max N 1) ↔ i = N - 1 := by omega
  simp only [lfsrStep_getLsbD, htop]

/-! ## The source's bit lists (R10, R100) -/

theorem bitList_succ {w : Nat} (n : Nat) (v : BitVec w) : bitList (n + 1) v = v.getLsbD n :: bitList n v := by
  simp [bitList, List.range_succ_eq_map, Function.comp_def, Nat.sub_sub, Nat.add_comm]

theorem bitList_succ_eq_concat {w : Nat} (n : Nat) (v : BitVec w) :
    bitList (n + 1) v = ((List.range n).map fun i => v.getLsbD (n - i)) ++ [v.getLsbD 0] := by
  simp [bitList, List.range_succ]

/-- The source's mod-2 inner product is the parity of the tapped bits. -/
theorem listFeedback_bitList {w : Nat} (n : Nat) (S T : BitVec w) :
    listFeedback (bitList n T) (bitList n S) = parityBelow (S &&& T) n := by
  induction n with
  | zero => rfl
  | succ n ih => rw [bitList_succ, bitList_succ, listFeedback, ih, parityBelow, BitVec.getLsbD_and, Bool.and_comm]

/-- On a register without bits at or above its length the step drops the list's last element and puts the feedback in
front (R100). -/
theorem bitList_lfsrStep {w n : Nat} {S : BitVec w} (T : BitVec w) (hn : n + 1 ≤ w) (hS : fitsIn (n + 1) S) :
    bitList (n + 1) (lfsrStep S T (n + 1)).1 = parity (S &&& T) :: (bitList (n + 1) S).dropLast := by
  rw [bitList_succ, bitList_succ_eq_concat, List.dropLast_concat, lfsrStep_getLsbD_of_lt S T (by omega) (by omega),
    hS (n + 1) le_rfl]
  congr 1
  · simp
  · refine List.map_congr_left fun i hi => ?_
    have hlt : i < n := List.mem_range.1 hi
    rw [lfsrStep_getLsbD_of_lt S T (by omega) (by omega), decide_eq_false (by omega), Bool.false_and, Bool.or_false]
    congr 1
    omega

/-- Settles O22: the step bit by bit, and through `bitList` the source's step on lists. -/
theorem lfsrStepIsTheListStep : Obligations.LfsrStepIsTheListStep := by
  unfold Obligations.LfsrStepIsTheListStep
  intro w S T N hN hw
  obtain ⟨n, rfl⟩ := Nat.exists_eq_add_of_le' hN
  refine ⟨rfl, fun i hi => ?_, fun hS => ⟨fitsIn_lfsrStep T hN hS, ?_, ?_⟩⟩
  · rw [oddBits_eq_parity, lfsrStep_getLsbD_of_lt S T hN hi]
  · rw [bitList_lfsrStep T hw hS, listFeedback_bitList, parity, parityBelow_of_fitsIn (fitsIn_and T hS) hw]
  · rw [bitList_succ_eq_concat, List.getLast?_concat]
    rfl

/-! ## Runs of the step (R104, R106) -/

theorem fitsIn_lfsrAfter {w N : Nat} {S : BitVec w} (T : BitVec w) (hN : 1 ≤ N) (hS : fitsIn N S) (k : Nat) :
    fitsIn N (lfsrAfter S T N k) := by
  induction k with
  | zero => exact hS
  | succ k ih => exact fitsIn_lfsrStep T hN ih

/-- The register's bits after `k` steps: the old ones `k` places down, and above them the feedback bits in the order
in which they entered (R106). -/
theorem lfsrAfter_getLsbD {w N : Nat} {S : BitVec w} (T : BitVec w) (hN : 1 ≤ N) (hw : N ≤ w) (hS : fitsIn N S)
    (k : Nat) {i : Nat} (hi : i < N) :
    (lfsrAfter S T N k).getLsbD i =
      if i + k < N then S.getLsbD (i + k) else parity (lfsrAfter S T N (i + k - N) &&& T) := by
  induction k generalizing i with
  | zero => simp [lfsrAfter, hi]
  | succ k ih =>
    rw [lfsrAfter, lfsrStep_getLsbD_of_lt _ T hN (by omega)]
    by_cases htop : i = N - 1
    · rw [fitsIn_lfsrAfter T hN hS k (i + 1) (by omega), if_neg (by omega), show i + (k + 1) - N = k by omega]
      simp [htop]
    · rw [ih (by omega), show i + 1 + k = i + (k + 1) by omega]
      simp [htop]

theorem lfsrDraw_fst {w : Nat} (m : Nat) (S T : BitVec w) (N k : Nat) :
    (lfsrDraw m S T N k).1 = lfsrAfter S T N k := by
  induction k with
  | zero => rfl
  | succ k ih => rw [lfsrDraw_succ, ih]; rfl

/-- Bit `j` of the drawn bits is the output of step `j` (R58, R104). -/
theorem lfsrDraw_snd_getLsbD {w : Nat} (m : Nat) (S T : BitVec w) (N k j : Nat) :
    (lfsrDraw m S T N k).2.getLsbD j = (decide (j < k ∧ j < m) && (lfsrAfter S T N j).getLsbD 0) := by
  induction k with
  | zero => simp
  | succ k ih =>
    rw [lfsrDraw_succ, lfsrDraw_fst, BitVec.getLsbD_or, ih, BitVec.getLsbD_shiftLeft, BitVec.getLsbD_setWidth,
      BitVec.getLsbD_ofBool, lfsrStep]
    grind

/-- The first `k ≤ N` outputs are the low `k` bits of the register (R106). -/
theorem lfsrDraw_snd_toNat {w m N k : Nat} {S : BitVec w} (T : BitVec w) (hN : 1 ≤ N) (hw : N ≤ w) (hk : k ≤ N)
    (hm : k ≤ m) (hS : fitsIn N S) : (lfsrDraw m S T N k).2.toNat = S.toNat % 2 ^ k := by
  refine Nat.eq_of_testBit_eq fun j => ?_
  rw [BitVec.testBit_toNat, lfsrDraw_snd_getLsbD, Nat.testBit_mod_two_pow, BitVec.testBit_toNat]
  by_cases hj : j < k
  · rw [lfsrAfter_getLsbD T hN hw hS j (by omega), Nat.zero_add, if_pos (by omega)]
    simp [hj, show j < m by omega]
  · simp [hj]

/-- The register after `k ≤ N` steps is the old one shifted down, below its own top `k` bits (R106). -/
theorem lfsrAfter_eq_shift_or {w N k : Nat} {S : BitVec w} (T : BitVec w) (hN : 1 ≤ N) (hw : N ≤ w) (hk : k ≤ N)
    (hS : fitsIn N S) :
    lfsrAfter S T N k = (S >>> k) ||| ((lfsrAfter S T N k >>> (N - k)) <<< (N - k)) := by
  refine BitVec.eq_of_getLsbD_eq fun i hi => ?_
  rw [BitVec.getLsbD_or, BitVec.getLsbD_ushiftRight, BitVec.getLsbD_shiftLeft, BitVec.getLsbD_ushiftRight,
    Nat.add_comm k i]
  by_cases hlow : i < N - k
  · rw [lfsrAfter_getLsbD T hN hw hS k (by omega), if_pos (by omega)]
    simp [hlow]
  · rw [hS (i + k) (by omega), show N - k + (i - (N - k)) = i by omega]
    simp [hlow, hi]

/-- Settles O24: the feedback bits are the top `k` bits of the register after `k` steps. -/
theorem lowBitsComeOutFirst : Obligations.LowBitsComeOutFirst := by
  unfold Obligations.LowBitsComeOutFirst
  intro w m S T N k hN hw hk hm hS
  refine ⟨lfsrDraw_snd_toNat T hN hw hk hm hS, lfsrAfter S T N k >>> (N - k), fun i hi => ?_, fun j hj => ?_, ?_⟩
  · rw [BitVec.getLsbD_ushiftRight]
    exact fitsIn_lfsrAfter T hN hS k _ (by omega)
  · rw [BitVec.getLsbD_ushiftRight, lfsrAfter_getLsbD T hN hw hS k (by omega), if_neg (by omega), oddBits_eq_parity,
      show N - k + j + k - N = j by omega]
  · rw [lfsrDraw_fst]
    exact lfsrAfter_eq_shift_or T hN hw hk hS

end Sys2Proof.Machine

/-! SUPPORT. The commands of the generic unit: their words, their error cases and what they leave (O23, O27 to O30). -/

namespace Sys2Proof.Machine

/-! ## The words of the commands (R71, R74) -/

theorem fieldOp_encode (i : Instr) : fieldOp (encode i) = Laws.opcode i := by
  cases i <;> exact (Laws.assembleFields_fields _ _ _ _).1

/-- If the opcode of `i` selects a row of R74, the words of `i` are the words of that row whose operands are those
of `i`. -/
theorem decode_eq_ok_iff_row {w mask pattern : Word} {i j : Instr}
    (hrow : fieldOp w = Laws.opcode i → decode w = rowOf mask pattern w j)
    (hop : fieldOp mask = BitVec.allOnes 4 ∧ fieldOp pattern = Laws.opcode i) :
    decode w = .ok i ↔ w &&& mask = pattern ∧ j = i := by
  rw [← rowOf_ok_iff]
  constructor <;> intro h
  · obtain ⟨-, rfl⟩ := encode_of_decode h
    rwa [← hrow (fieldOp_encode i)]
  · obtain ⟨hw, -⟩ := (rowOf_ok_iff _ _ _ _ _).1 h
    rwa [hrow (extractLsb'_of_and_eq hw hop.1 hop.2)]

/-- A command without operands has one word (R74). -/
theorem decode_eq_ok_iff_eq {i : Instr} {v : Word} (hi : i.wf = true) (hv : encode i = v) (w : Word) :
    decode w = .ok i ↔ w = v := by
  rw [decode_eq_ok_iff, hv]
  simp [hi, eq_comm]

theorem fieldA_eq_iff (w : Word) (a : BitVec 6) : fieldA w = a ↔ a.toNat = w.toNat / 2 ^ 4 % 64 := by
  rw [← BitVec.toNat_inj, fieldA, BitVec.extractLsb'_toNat, Nat.shiftRight_eq_div_pow, eq_comm]

theorem fieldB_eq_iff (w : Word) (b : BitVec 6) : fieldB w = b ↔ b.toNat = w.toNat / 2 ^ 10 % 64 := by
  rw [← BitVec.toNat_inj, fieldB, BitVec.extractLsb'_toNat, Nat.shiftRight_eq_div_pow, eq_comm]

theorem decode_lcfg_iff (w : Word) (a b : BitVec 6) :
    decode w = .ok (.lcfg a b) ↔
      w &&& 0xFFFF000F = 0x00000001 ∧ a.toNat = w.toNat / 2 ^ 4 % 64 ∧ b.toNat = w.toNat / 2 ^ 10 % 64 := by
  rw [decode_eq_ok_iff_row (fun h => by rw [decode, h]; rfl) ⟨by decide, rfl⟩, Instr.lcfg.injEq, fieldA_eq_iff,
    fieldB_eq_iff]

theorem decode_lseq_iff (w : Word) (k : BitVec 6) :
    decode w = .ok (.lseq k) ↔ w &&& 0xFFFFFC0F = 0x00000004 ∧ k.toNat = w.toNat / 2 ^ 4 % 64 := by
  rw [decode_eq_ok_iff_row (fun h => by rw [decode, h]; rfl) ⟨by decide, rfl⟩, Instr.lseq.injEq, fieldA_eq_iff]

/-! ## The configured check (R162) -/

theorem whenReady_of_not_valid {v : Bool} (hv : v = false) (s : State) (body : Answer) :
    whenReady v s body = .next { s with err := .notReady, errSeen := true } := by
  rw [hv, whenReady_false, raiseError]

theorem whenReady_succeed_of_valid {v : Bool} (hv : v = true) (s u : State) :
    whenReady v s (succeed u) = .next { u with err := .none } := by
  rw [hv, whenReady_true, succeed]

/-! ## LCFG (R101) -/

/-- Masking to `n` bits is taking the remainder mod `2 ^ n` (R101). -/
theorem lowBits_toNat {n : Nat} (hn : n ≤ 32) (v : Word) : (lowBits n v).toNat = v.toNat % 2 ^ n := by
  rw [← setWidth_extractLsb'_eq_lowBits hn, BitVec.toNat_setWidth_of_le hn, BitVec.extractLsb'_toNat,
    Nat.shiftRight_zero]

theorem lowBits_eq_ofNat {n : Nat} (hn : n ≤ 32) (v : Word) : lowBits n v = BitVec.ofNat 32 (v.toNat % 2 ^ n) := by
  rw [← lowBits_toNat hn, BitVec.ofNat_toNat, BitVec.setWidth_eq]

theorem exec_lcfg_of_ne {a b : BitVec 6} (s : State) (h : a ≠ b) :
    exec (.lcfg a b) s = .next { s with err := .config, errSeen := true } :=
  if_pos h

theorem exec_lcfg_of_bad_length {a : BitVec 6} (s : State) (h : a.toNat = 0 ∨ 32 < a.toNat) :
    exec (.lcfg a a) s = .next { s with err := .config, errSeen := true } :=
  (if_neg (not_not.2 rfl)).trans (if_pos h)

theorem exec_lcfg_of_length {a : BitVec 6} (s : State) (hlo : 1 ≤ a.toNat) (hhi : a.toNat ≤ 32) :
    exec (.lcfg a a) s =
      .next
        { s with
          gen :=
            { n := a, state := lowBits a.toNat s.lseed, taps := lowBits a.toNat s.ltaps
              init := lowBits a.toNat s.lseed, valid := true }
          err := .none } :=
  (if_neg (not_not.2 rfl)).trans (if_neg (by unfold nMax; omega))

/-- Settles O27: one branch of the command for each clause. -/
theorem lcfgConfiguresTheUnit : Obligations.LcfgConfiguresTheUnit := by
  unfold Obligations.LcfgConfiguresTheUnit
  refine ⟨decode_lcfg_iff, fun a b s h => exec_lcfg_of_ne s h, fun a s h => exec_lcfg_of_bad_length s h,
    fun a s hlo hhi => ?_⟩
  rw [exec_lcfg_of_length s hlo hhi, lowBits_eq_ofNat hhi, lowBits_eq_ofNat hhi]

/-! ## LRST, LNXT and LSEQ (R102 to R104) -/

/-- Settles O28: the one word, and the two answers of the configured check. -/
theorem lrstRestoresTheSeed : Obligations.LrstRestoresTheSeed := by
  unfold Obligations.LrstRestoresTheSeed
  exact ⟨decode_eq_ok_iff_eq rfl (by decide), fun s hv => whenReady_of_not_valid hv s _,
    fun s hv => whenReady_succeed_of_valid hv s _⟩

/-- The low bit as a word is the word mod 2 (R103). -/
theorem setWidth_ofBool_getLsbD_zero (v : Word) :
    (BitVec.ofBool (v.getLsbD 0)).setWidth 32 = BitVec.ofNat 32 (v.toNat % 2) := by
  rw [BitVec.getLsbD, Nat.testBit_zero]
  obtain h | h := Nat.mod_two_eq_zero_or_one v.toNat <;> rw [h] <;> rfl

/-- Settles O29: the output is the low bit, which is taken before the step. -/
theorem lnxtReturnsOneBit : Obligations.LnxtReturnsOneBit := by
  unfold Obligations.LnxtReturnsOneBit
  refine ⟨decode_eq_ok_iff_eq rfl (by decide), fun s hv => whenReady_of_not_valid hv s _, fun s hv => ?_⟩
  rw [exec_lnxt_of_valid hv, lfsrStep, setWidth_ofBool_getLsbD_zero]

theorem exec_lseq_of_range {k : BitVec 6} {s : State} (hv : s.gen.valid = true) (hk : 32 < k.toNat) :
    exec (.lseq k) s = .next { s with err := .range, errSeen := true } := by
  refine (execLseq_eq k s).trans ?_
  rw [hv, whenReady_true, if_pos (show lseqMax < k.toNat from hk), raiseError]

theorem exec_lseq_of_count {k : BitVec 6} {s : State} (hv : s.gen.valid = true) (hk : k.toNat ≤ 32) :
    exec (.lseq k) s = .next
      { s with
        gen := { s.gen with state := lfsrAfter s.gen.state s.gen.taps s.gen.n.toNat k.toNat }
        result := (lfsrDraw 32 s.gen.state s.gen.taps s.gen.n.toNat k.toNat).2
        err := .none } := by
  refine (execLseq_eq k s).trans ?_
  rw [hv, whenReady_true, if_neg (show ¬ lseqMax < k.toNat from Nat.not_lt.2 hk), succeed, lfsrDraw_fst]

/-- Settles O30: RESULT is the drawn bits, whose bit `j` is the output of step `j`. -/
theorem lseqPacksTheOutputs : Obligations.LseqPacksTheOutputs := by
  unfold Obligations.LseqPacksTheOutputs
  refine ⟨decode_lseq_iff, fun k s hv => whenReady_of_not_valid hv s _, fun k s => exec_lseq_of_range,
    fun k s hv hk => ⟨_, exec_lseq_of_count hv hk, fun j => ?_⟩⟩
  have hcount : (j < k.toNat ∧ j < 32) ↔ j < k.toNat := by omega
  simp only [lfsrDraw_snd_getLsbD, hcount]

/-! ## Zero taps (R105) -/

/-- With zero taps nothing enters the register, so `N` steps leave it empty. -/
theorem lfsrAfter_zero_taps {w N : Nat} {S : BitVec w} (hN : 1 ≤ N) (hw : N ≤ w) (hS : fitsIn N S) :
    lfsrAfter S 0 N N = 0 := by
  refine BitVec.eq_of_getLsbD_eq fun i _ => Eq.trans ?_ BitVec.getLsbD_zero.symm
  by_cases hi : i < N
  · rw [lfsrAfter_getLsbD 0 hN hw hS N hi, if_neg (by omega)]
    exact (congrArg parity BitVec.and_zero).trans parity_zero
  · exact fitsIn_lfsrAfter 0 hN hS N i (by omega)

theorem toNat_lt_of_fitsIn {w n : Nat} {v : BitVec w} (hv : fitsIn n v) : v.toNat < 2 ^ n := by
  refine Nat.lt_pow_two_of_testBit v.toNat fun i hi => ?_
  rw [BitVec.testBit_toNat, hv i hi]

/-- Settles O23: the `N` outputs are the low `N` bits of the seed (R106), which are all it has. -/
theorem zeroTapsReproduceTheSeed : Obligations.ZeroTapsReproduceTheSeed := by
  unfold Obligations.ZeroTapsReproduceTheSeed
  intro s n htaps hlo hhi
  have hseed : fitsIn n.toNat (lowBits n.toNat s.lseed) := fitsIn_lowBits _ _
  have hzero : lowBits n.toNat s.ltaps = 0 := by rw [htaps, lowBits]; exact BitVec.zero_and
  refine ⟨_, _, exec_lcfg_of_length s hlo hhi, exec_lseq_of_count rfl hhi, ?_, ?_, ?_⟩
  · exact lowBits_toNat hhi s.lseed
  · refine BitVec.eq_of_toNat_eq ?_
    rw [lfsrDraw_snd_toNat _ hlo hhi le_rfl hhi hseed, Nat.mod_eq_of_lt (toNat_lt_of_fitsIn hseed)]
  · rw [hzero]
    exact lfsrAfter_zero_taps hlo hhi hseed

end Sys2Proof.Machine

/-! SUPPORT. The step as a linear map: it is invertible where the output bit is tapped, and L17 has the full period
(O25, O26). -/

namespace Sys2Proof.Machine

/-! ## The step is linear (R100) -/

theorem parityBelow_xor_and {w : Nat} (u v T : BitVec w) (n : Nat) :
    parityBelow ((u ^^^ v) &&& T) n = (parityBelow (u &&& T) n ^^ parityBelow (v &&& T) n) := by
  induction n with
  | zero => rfl
  | succ n ih =>
    simp only [parityBelow, ih, BitVec.getLsbD_and, BitVec.getLsbD_xor, Bool.and_xor_distrib_right]
    grind

/-- A map of registers that keeps sums mod 2. -/
def XorLinear {w : Nat} (f : BitVec w → BitVec w) : Prop := ∀ u v, f (u ^^^ v) = f u ^^^ f v

/-- The bit that enters a full register has nothing to collide with, so the step of a sum is the sum of the steps. -/
theorem xorLinear_lfsrStep {w : Nat} (T : BitVec (w + 1)) : XorLinear fun S => (lfsrStep S T (w + 1)).1 := by
  intro u v
  refine BitVec.eq_of_getLsbD_eq fun i hi => ?_
  rw [BitVec.getLsbD_xor]
  simp only [lfsrStep_getLsbD_of_lt _ T (Nat.le_add_left 1 w) hi, Nat.add_sub_cancel]
  by_cases htop : i = w
  · subst htop
    simp [parity, parityBelow_xor_and]
  · simp [htop]

/-! ## Invertible steps, and the zero state (R107) -/

theorem lfsrStep_zero {w : Nat} (T : BitVec w) (N : Nat) : lfsrStep 0 T N = (0, false) := by
  simp [lfsrStep]

/-- A step whose output bit is tapped is invertible: the sum of two registers with one successor steps to 0, so it is
0. -/
theorem lfsrStep_injective {w : Nat} {T : BitVec (w + 1)} (hT : T.getLsbD 0 = true) :
    Function.Injective fun S => (lfsrStep S T (w + 1)).1 := by
  intro u v h
  by_contra hne
  refine lfsrStep_ne_zero hT (S := u ^^^ v) (mt BitVec.xor_eq_zero_iff.1 hne) ?_
  exact (xorLinear_lfsrStep T u v).trans (BitVec.xor_eq_zero_iff.2 h)

theorem lfsrAfter_eq_iterate {w : Nat} (S T : BitVec w) (N k : Nat) :
    lfsrAfter S T N k = (fun S => (lfsrStep S T N).1)^[k] S := by
  induction k with
  | zero => rfl
  | succ k ih => rw [lfsrAfter, Function.iterate_succ_apply', ← ih]

theorem lfsrAfter_ne_zero {w : Nat} {S T : BitVec (w + 1)} (hT : T.getLsbD 0 = true) (hS : S ≠ 0) (k : Nat) :
    lfsrAfter S T (w + 1) k ≠ 0 := by
  induction k with
  | zero => exact hS
  | succ k ih => exact lfsrStep_ne_zero hT ih

theorem init17_ne_zero (seed : BitVec 40) : init17 seed ≠ 0 :=
  ne_zero_of_getLsbD (i := 16) (by simp [init17])

theorem init25_ne_zero (seed : BitVec 40) : init25 seed ≠ 0 :=
  ne_zero_of_getLsbD (i := 24) (by simp [init25])

/-- Settles O25: under REVERSED the output bit is tapped; under LITERAL it is not, and 1 steps to 0 as 0 does. -/
theorem zeroStateIsFixedAndUnreachable : Obligations.ZeroStateIsFixedAndUnreachable := by
  unfold Obligations.ZeroStateIsFixedAndUnreachable
  refine ⟨fun w T N => lfsrStep_zero T N,
    fun _ _ h => lfsrStep_injective rfl h, fun _ _ h => lfsrStep_injective rfl h,
    fun seed k => ⟨lfsrAfter_ne_zero rfl (init17_ne_zero seed) k, lfsrAfter_ne_zero rfl (init25_ne_zero seed) k⟩,
    ⟨0, 1, by decide, by decide⟩, ⟨0, 1, by decide, by decide⟩⟩

/-! ## The columns of a linear map

A linear map of registers is known from its values on the single bits, its columns. The columns of the map applied twice
are the columns' own images, so those of `f^[2 ^ k]` take `k` squarings. -/

/-- The images of the lowest `n` single bits under `f`, bit 0 first. -/
def columns {w : Nat} (f : BitVec w → BitVec w) : Nat → List (BitVec w)
  | 0 => []
  | n + 1 => f 1 :: columns (fun v => f (v <<< 1)) n

/-- The sum of the columns that the set bits of a register select. -/
def applyColumns {w : Nat} : List (BitVec w) → BitVec w → BitVec w
  | [], _ => 0
  | c :: cs, S => (if S.getLsbD 0 then c else 0) ^^^ applyColumns cs (S >>> 1)

/-- The columns of a map applied twice. -/
def squareColumns {w : Nat} (cs : List (BitVec w)) : List (BitVec w) := cs.map (applyColumns cs)

theorem XorLinear.map_zero {w : Nat} {f : BitVec w → BitVec w} (hf : XorLinear f) : f 0 = 0 := by
  have h := hf 0 0
  rw [BitVec.xor_self, BitVec.xor_self] at h
  exact h

theorem XorLinear.comp {w : Nat} {f g : BitVec w → BitVec w} (hf : XorLinear f) (hg : XorLinear g) :
    XorLinear (f ∘ g) := fun u v => by
  simp only [Function.comp_apply, hg u v, hf (g u) (g v)]

theorem XorLinear.iterate {w : Nat} {f : BitVec w → BitVec w} (hf : XorLinear f) (k : Nat) : XorLinear f^[k] := by
  induction k with
  | zero => exact fun _ _ => rfl
  | succ k ih => exact ih.comp hf

theorem XorLinear.comp_shift {w : Nat} {f : BitVec w → BitVec w} (hf : XorLinear f) :
    XorLinear fun v => f (v <<< 1) :=
  hf.comp (g := (· <<< 1)) fun u v => BitVec.shiftLeft_xor_distrib u v 1

/-- A register is its low bit and the rest shifted back up. -/
theorem lowBit_xor_rest {w : Nat} (S : BitVec w) :
    (if S.getLsbD 0 then 1 else 0 : BitVec w) ^^^ ((S >>> 1) <<< 1) = S := by
  refine BitVec.eq_of_getLsbD_eq fun i hi => ?_
  cases i with
  | zero => cases h : S.getLsbD 0 <;> simp [hi]
  | succ i => cases S.getLsbD 0 <;> simp [hi, Nat.add_comm]

/-- The columns of a linear map apply as the map does. -/
theorem applyColumns_columns {w n : Nat} {f : BitVec w → BitVec w} (hf : XorLinear f) {S : BitVec w}
    (hS : fitsIn n S) : applyColumns (columns f n) S = f S := by
  induction n generalizing f S with
  | zero =>
    have hzero : S = 0 := BitVec.eq_of_getLsbD_eq fun i _ => (hS i (Nat.zero_le i)).trans BitVec.getLsbD_zero.symm
    rw [hzero, hf.map_zero]
    rfl
  | succ n ih =>
    have hrest : fitsIn n (S >>> 1) := fun i hi => by
      rw [BitVec.getLsbD_ushiftRight]
      exact hS (1 + i) (by omega)
    calc applyColumns (columns f (n + 1)) S
        = (if S.getLsbD 0 then f 1 else 0) ^^^ f ((S >>> 1) <<< 1) := by
          rw [columns, applyColumns, ih hf.comp_shift hrest]
      _ = f ((if S.getLsbD 0 then 1 else 0 : BitVec w) ^^^ ((S >>> 1) <<< 1)) := by
          rw [hf, apply_ite f, hf.map_zero]
      _ = f S := by rw [lowBit_xor_rest]

theorem applyColumns_columns_eq {w : Nat} {f : BitVec w → BitVec w} (hf : XorLinear f) :
    applyColumns (columns f w) = f :=
  funext fun S => applyColumns_columns hf fun _ hi => BitVec.getLsbD_of_ge S _ hi

/-- A linear map is determined by its columns. -/
theorem XorLinear.eq_of_columns {w : Nat} {f g : BitVec w → BitVec w} (hf : XorLinear f) (hg : XorLinear g)
    (h : columns f w = columns g w) : f = g := by
  rw [← applyColumns_columns_eq hf, h, applyColumns_columns_eq hg]

theorem map_columns {w : Nat} (f g : BitVec w → BitVec w) (n : Nat) :
    (columns g n).map f = columns (f ∘ g) n := by
  induction n generalizing g with
  | zero => rfl
  | succ n ih => rw [columns, List.map_cons, ih]; rfl

theorem squareColumns_columns {w : Nat} {f : BitVec w → BitVec w} (hf : XorLinear f) :
    squareColumns (columns f w) = columns (f ∘ f) w := by
  rw [squareColumns, applyColumns_columns_eq hf, map_columns]

theorem columns_iterate_two_pow {w : Nat} {f : BitVec w → BitVec w} (hf : XorLinear f) (k : Nat) :
    columns f^[2 ^ k] w = squareColumns^[k] (columns f w) := by
  induction k generalizing f with
  | zero => rfl
  | succ k ih =>
    rw [Function.iterate_succ_apply, squareColumns_columns hf, ← ih (hf.comp hf), pow_succ', Function.iterate_mul]
    rfl

/-! ## The period of L17 (R108) -/

/-- The step of L17 under REVERSED (R23). -/
def stepL17 (S : BitVec 17) : BitVec 17 := (lfsrStep S (t17 .reversed) 17).1

theorem xorLinear_stepL17 : XorLinear stepL17 := xorLinear_lfsrStep (t17 .reversed)

theorem stepL17_injective : Function.Injective stepL17 := lfsrStep_injective rfl

/-- Seventeen squarings bring the columns of L17's step back. -/
theorem squareColumns_stepL17 : squareColumns^[17] (columns stepL17 17) = columns stepL17 17 := by
  decide +kernel

/-- 2 ^ 17 steps of L17 are one step, and the step is invertible, so 2 ^ 17 - 1 steps are none. -/
theorem stepL17_iterate_period (S : BitVec 17) : stepL17^[131071] S = S := by
  have hpow : stepL17^[131071 + 1] = stepL17 := by
    rw [show 131071 + 1 = 2 ^ 17 by norm_num]
    exact (xorLinear_stepL17.iterate _).eq_of_columns xorLinear_stepL17
      ((columns_iterate_two_pow xorLinear_stepL17 17).trans squareColumns_stepL17)
  refine stepL17_injective ?_
  rw [← Function.iterate_succ_apply' stepL17, hpow]

/-- Settles O26: the period divides the prime 2 ^ 17 - 1, and it is not 1. -/
theorem periodOfL17 : Obligations.PeriodOfL17 := by
  unfold Obligations.PeriodOfL17
  simp only [lfsrAfter_eq_iterate]
  have hperiod : Function.IsPeriodicPt stepL17 131071 0x10000 := stepL17_iterate_period _
  refine ⟨hperiod, fun k hpos hlt hk => ?_⟩
  have hprime : Nat.Prime 131071 := by norm_num
  have hcoprime : Nat.gcd 131071 k = 1 := Nat.coprime_of_lt_prime hpos.ne' hlt hprime
  have hfixed : stepL17 0x10000 = 0x10000 := by
    have h := hperiod.gcd (n := k) hk
    rwa [hcoprime] at h
  exact absurd hfixed (by decide)

end Sys2Proof.Machine

/-! SUPPORT. The combiner: what ELOAD builds from the seed, what a raw keystream byte is, and the commands that load,
restore and read the combiner (O32 to O39). -/

namespace Sys2Proof.Machine

/-! ## The registers built from the seed (R120, R121) -/

/-- ESEED_HI stands above ESEED_LO in the seed (R121). -/
theorem seed40_toNat (s : State) : (seed40 s).toNat = s.eseedHi.toNat * 2 ^ 32 + s.eseedLo.toNat := by
  rw [seed40, toNat_append_eq_add, Nat.mul_comm]

/-- The leading 1 of L17 above the seed's upper 16 bits (R120). -/
theorem init17_toNat (seed : BitVec 40) : (init17 seed).toNat = 2 ^ 16 + seed.toNat / 2 ^ 24 := by
  have hlt : seed.toNat / 2 ^ 24 < 2 ^ 16 := by omega
  rw [init17, BitVec.toNat_or, BitVec.toNat_setWidth_of_le (by decide), BitVec.extractLsb'_toNat,
    Nat.shiftRight_eq_div_pow, Nat.mod_eq_of_lt hlt]
  exact (Nat.two_pow_add_eq_or_of_lt hlt 1).symm

/-- The leading 1 of L25 above the seed's lower 24 bits (R120). -/
theorem init25_toNat (seed : BitVec 40) : (init25 seed).toNat = 2 ^ 24 + seed.toNat % 2 ^ 24 := by
  have hlt : seed.toNat % 2 ^ 24 < 2 ^ 24 := by omega
  rw [init25, BitVec.toNat_or, BitVec.toNat_setWidth_of_le (by decide), BitVec.extractLsb'_toNat, Nat.shiftRight_zero]
  exact (Nat.two_pow_add_eq_or_of_lt hlt 1).symm

theorem init17_eq_ofNat (seed : BitVec 40) : init17 seed = BitVec.ofNat 17 (2 ^ 16 + seed.toNat / 2 ^ 24) := by
  rw [← init17_toNat, BitVec.ofNat_toNat, BitVec.setWidth_eq]

theorem init25_eq_ofNat (seed : BitVec 40) : init25 seed = BitVec.ofNat 25 (2 ^ 24 + seed.toNat % 2 ^ 24) := by
  rw [← init25_toNat, BitVec.ofNat_toNat, BitVec.setWidth_eq]

/-! ## ELOAD, ERST and EBEG (R121, R122, R128) -/

theorem decode_eload_iff (w : Word) (n : BitVec 6) :
    decode w = .ok (.eload n) ↔ w &&& 0xFFFFFC0F = 0x00000005 ∧ n.toNat = w.toNat / 2 ^ 4 % 64 := by
  rw [decode_eq_ok_iff_row (fun h => by rw [decode, h]; rfl) ⟨by decide, rfl⟩, Instr.eload.injEq, fieldA_eq_iff]

theorem exec_eload_of_ne {n : BitVec 6} (s : State) (h : n.toNat ≠ 40) :
    exec (.eload n) s = .next { s with err := .config, errSeen := true } :=
  if_pos h

theorem exec_eload_of_length (s : State) :
    exec (.eload 40) s = .next { s with eng := Combiner.ofSeed (seed40 s), err := .none } :=
  rfl

/-- Settles O32: the seed is the two registers side by side, and each LFSR is a 1 above its part of it. -/
theorem eloadBuildsTheCombiner : Obligations.EloadBuildsTheCombiner := by
  unfold Obligations.EloadBuildsTheCombiner
  refine ⟨decode_eload_iff, fun n s h => exec_eload_of_ne s h, fun s => ?_⟩
  rw [exec_eload_of_length, Combiner.ofSeed, init17_eq_ofNat, init25_eq_ofNat, seed40_toNat]

/-- Settles O33: the one word, and the two answers of the configured check. -/
theorem erstRestoresTheCombiner : Obligations.ErstRestoresTheCombiner := by
  unfold Obligations.ErstRestoresTheCombiner
  exact ⟨decode_eq_ok_iff_eq rfl (by decide), fun s hv => whenReady_of_not_valid hv s _,
    fun s hv => whenReady_succeed_of_valid hv s _⟩

/-- Settles O37: the one word, and the two answers of the configured check. -/
theorem ebegClearsTheCarry : Obligations.EbegClearsTheCarry := by
  unfold Obligations.EbegClearsTheCarry
  exact ⟨decode_eq_ok_iff_eq rfl (by decide), fun s hv => whenReady_of_not_valid hv s _,
    fun s hv => whenReady_succeed_of_valid hv s _⟩

/-! ## Raw keystream bytes (R123, R129) -/

/-- A register has no bit at or above its width. -/
theorem fitsIn_width {w : Nat} (v : BitVec w) : fitsIn w v := fun _ hi => BitVec.getLsbD_of_ge v _ hi

/-- Both registers take eight steps (R123). -/
theorem ksRaw_fst (p : Params) (e : Combiner) :
    (ksRaw p e).1 =
      { e with
        s17 := lfsrAfter e.s17 (t17 p.tapIndexing) 17 8
        s25 := lfsrAfter e.s25 (t25 p.tapIndexing) 25 8 } := by
  rw [ksRaw_eq, lfsrDraw_fst, lfsrDraw_fst]

/-- The registers are longer than a byte, so the outputs of a draw are their low bytes (R129). -/
theorem ksRaw_snd (p : Params) (e : Combiner) : (ksRaw p e).2 = e.s17.toNat % 256 + e.s25.toNat % 256 := by
  rw [ksRaw_eq, lfsrDraw_snd_toNat _ (by decide) le_rfl (by decide) le_rfl (fitsIn_width _),
    lfsrDraw_snd_toNat _ (by decide) le_rfl (by decide) le_rfl (fitsIn_width _)]
  rfl

/-- Settles O34: the two summands are the bits drawn from the two registers. -/
theorem rawByteIsTheSumOfTwoDraws : Obligations.RawByteIsTheSumOfTwoDraws := by
  unfold Obligations.RawByteIsTheSumOfTwoDraws
  intro p e
  have hdraw {w : Nat} (S T : BitVec w) (N j : Nat) (hj : j < 8) :
      (lfsrDraw 8 S T N 8).2.getLsbD j = (lfsrAfter S T N j).getLsbD 0 := by
    rw [lfsrDraw_snd_getLsbD, decide_eq_true ⟨hj, hj⟩, Bool.true_and]
  exact ⟨_, _, hdraw _ _ _, hdraw _ _ _, Prod.ext (ksRaw_fst p e) rfl⟩

/-- Settles O35: the draw of R123 with the two answers of the configured check. -/
theorem eksrReturnsTheRawByte : Obligations.EksrReturnsTheRawByte := by
  unfold Obligations.EksrReturnsTheRawByte
  refine ⟨decode_eq_ok_iff_eq rfl (by decide), fun s hv => whenReady_of_not_valid hv s _,
    fun s hv => ⟨?_, fun c => ?_⟩⟩
  · exact (execEksr_eq s).trans (whenReady_succeed_of_valid hv s _)
  · rw [ksRaw_snd, ksRaw_snd]

/-! ## Reduced keystream bytes (R124, R125, R130) -/

/-- The carry is set under RAW_SUM only, and there by a raw byte above 255 (R124). -/
theorem carryNext_eq (rule : CarryRule) (raw : Nat) :
    carryNext rule raw = (decide (rule = .rawSum) && decide (255 < raw)) := by
  cases rule with
  | rawSum => exact (Bool.true_and _).symm
  | never => exact (Bool.false_and _).symm

/-- The carry that comes in is 0 or 1 (R125). -/
theorem reduceKs_toNat (raw : Nat) (carry : Bool) :
    (reduceKs raw carry).toNat = (raw + if carry = true then 1 else 0) % 256 := by
  rw [reduceKs, BitVec.toNat_ofNat, Bool.toNat, Bool.cond_eq_ite]

/-- Settles O36: the draw of R123, reduced with the old carry, with the two answers of the configured check. -/
theorem eksbThreadsTheCarry : Obligations.EksbThreadsTheCarry := by
  unfold Obligations.EksbThreadsTheCarry
  refine ⟨decode_eq_ok_iff_eq rfl (by decide), fun s hv => whenReady_of_not_valid hv s _, fun s hv => ?_⟩
  refine ((execEksb_eq s).trans (whenReady_succeed_of_valid hv s _)).trans ?_
  rw [ksByte_eq, carryNext_eq, ← BitVec.ofNat_toNat, reduceKs_toNat]

/-- Settles O39: the raw byte is the sum of two low bytes, and the carry looks at it alone. -/
theorem rangesOfKeystreamBytes : Obligations.RangesOfKeystreamBytes := by
  unfold Obligations.RangesOfKeystreamBytes
  intro p e
  refine ⟨ksRaw_le p e, ?_, fun hp => ?_, fun hp => carryNext_never hp _, ?_⟩
  · rw [ksRaw_snd]
    omega
  · rw [ksByte_eq, hp, carryNext, ksRaw_snd, decide_eq_true_iff]
    omega
  · exact Nat.le_of_lt_succ (ksByte p e).2.isLt

/-! ## The first draws after ELOAD (R129) -/

theorem lfsrAfter_add {w : Nat} (S T : BitVec w) (N j k : Nat) :
    lfsrAfter (lfsrAfter S T N j) T N k = lfsrAfter S T N (k + j) := by
  simp only [lfsrAfter_eq_iterate, Function.iterate_add_apply]

/-- `j` raw bytes are `8 * j` steps of each register (R123). -/
theorem rawAfter_registers (p : Params) (e : Combiner) (j : Nat) :
    (rawAfter p e j).s17 = lfsrAfter e.s17 (t17 p.tapIndexing) 17 (8 * j) ∧
      (rawAfter p e j).s25 = lfsrAfter e.s25 (t25 p.tapIndexing) 25 (8 * j) := by
  induction j with
  | zero => exact ⟨rfl, rfl⟩
  | succ j ih =>
    obtain ⟨ih17, ih25⟩ := ih
    rw [rawAfter, ksRaw_fst, ih17, ih25, lfsrAfter_add, lfsrAfter_add, Nat.mul_succ, Nat.add_comm (8 * j) 8]
    exact ⟨rfl, rfl⟩

/-- The low bits of a full register after `k` steps are those of the old one from bit `k` on, while none of the bits
that entered has come down to them (R106). -/
theorem lfsrAfter_toNat_mod {w k m : Nat} (S T : BitVec w) (hw : 1 ≤ w) (hk : k + m ≤ w) :
    (lfsrAfter S T w k).toNat % 2 ^ m = S.toNat / 2 ^ k % 2 ^ m := by
  refine Nat.eq_of_testBit_eq fun i => ?_
  rw [Nat.testBit_mod_two_pow, Nat.testBit_mod_two_pow, BitVec.testBit_toNat, Nat.testBit_div_two_pow,
    BitVec.testBit_toNat]
  by_cases hi : i < m
  · rw [lfsrAfter_getLsbD T hw le_rfl (fitsIn_width S) k (by omega), if_pos (by omega)]
  · simp [hi]

/-- The outputs of a full register, up to its length, are its bits in rising order (R106, R129). -/
theorem lfsrAfter_getLsbD_zero {w i : Nat} (S T : BitVec w) (hi : i < w) :
    (lfsrAfter S T w i).getLsbD 0 = S.getLsbD i := by
  rw [lfsrAfter_getLsbD T (by omega) le_rfl (fitsIn_width S) i (by omega), if_pos (by omega), Nat.zero_add]

/-- The low bits of L17 at draw `j` after ELOAD (R129). -/
theorem rawAfter_ofSeed_s17 (p : Params) (seed : BitVec 40) {j m : Nat} (hj : 8 * j + m ≤ 17) :
    (rawAfter p (Combiner.ofSeed seed) j).s17.toNat % 2 ^ m =
      (2 ^ 16 + seed.toNat / 2 ^ 24) / 2 ^ (8 * j) % 2 ^ m := by
  rw [(rawAfter_registers p _ j).1, lfsrAfter_toNat_mod _ _ (by decide) hj, Combiner.ofSeed, init17_toNat]

/-- The low bits of L25 at draw `j` after ELOAD (R129). -/
theorem rawAfter_ofSeed_s25 (p : Params) (seed : BitVec 40) {j m : Nat} (hj : 8 * j + m ≤ 25) :
    (rawAfter p (Combiner.ofSeed seed) j).s25.toNat % 2 ^ m =
      (2 ^ 24 + seed.toNat % 2 ^ 24) / 2 ^ (8 * j) % 2 ^ m := by
  rw [(rawAfter_registers p _ j).2, lfsrAfter_toNat_mod _ _ (by decide) hj, Combiner.ofSeed, init25_toNat]

/-- Settles O38: a draw is the low bytes of the registers, which are the seed's bytes one after the other and then the
leading 1. -/
theorem closedFormOfTheFirstDraws : Obligations.ClosedFormOfTheFirstDraws := by
  unfold Obligations.ClosedFormOfTheFirstDraws
  refine ⟨ksRaw_snd, fun p seed => ?_,
    fun x seed => ⟨fun i => lfsrAfter_getLsbD_zero _ _, fun i => lfsrAfter_getLsbD_zero _ _⟩⟩
  have hx0 := rawAfter_ofSeed_s17 p seed (j := 0) (m := 8) (by decide)
  have hx1 := rawAfter_ofSeed_s17 p seed (j := 1) (m := 8) (by decide)
  have hx2 := rawAfter_ofSeed_s17 p seed (j := 2) (m := 1) (by decide)
  have hy0 := rawAfter_ofSeed_s25 p seed (j := 0) (m := 8) (by decide)
  have hy1 := rawAfter_ofSeed_s25 p seed (j := 1) (m := 8) (by decide)
  have hy2 := rawAfter_ofSeed_s25 p seed (j := 2) (m := 8) (by decide)
  have hy3 := rawAfter_ofSeed_s25 p seed (j := 3) (m := 1) (by decide)
  dsimp only
  refine ⟨?_, ?_, ?_, ?_, ?_, ?_, ?_⟩ <;> omega

end Sys2Proof.Machine

/-! SUPPORT. Runs of combiner commands: what they leave is a function of the parameters, the combiner and RESULT
(O46). -/

namespace Sys2Proof.Machine

/-- The commands that work on the configured combiner alone, their operands in their words. -/
def OnCombiner (i : Instr) : Prop :=
  i = .erst ∨ i = .eksr ∨ i = .eksb ∨ i = .ebeg ∨ (∃ d, i = .exb d) ∨ ∃ d, i = .exn d

/-- Two blocks that agree in all that these commands read or leave, STATUS apart. -/
def CombinerAlike (s t : State) : Prop := s.params = t.params ∧ s.eng = t.eng ∧ s.result = t.result

/-- Both outcomes are next states, and the states are alike. -/
def EndAlike (a b : Answer) : Prop := ∃ s t, a = .next s ∧ b = .next t ∧ CombinerAlike s t

/-- Blocks that are alike are both configured or both not, so a checked command ends alike if its body does. -/
theorem CombinerAlike.whenReady_succeed {s t u v : State} (h : CombinerAlike s t) (huv : CombinerAlike u v) :
    EndAlike (whenReady s.eng.valid s (succeed u)) (whenReady t.eng.valid t (succeed v)) := by
  obtain ⟨-, heng, -⟩ := id h
  rw [heng]
  cases t.eng.valid with
  | true => exact ⟨_, _, rfl, rfl, huv⟩
  | false => exact ⟨_, _, rfl, rfl, h⟩

/-- The combiner's commands end alike in blocks that are alike. -/
theorem CombinerAlike.exec {s t : State} (h : CombinerAlike s t) {i : Instr} (hi : OnCombiner i) :
    EndAlike (exec i s) (exec i t) := by
  obtain ⟨hparams, heng, hresult⟩ := id h
  obtain rfl | rfl | rfl | rfl | ⟨d, rfl⟩ | ⟨d, rfl⟩ := hi
  · exact h.whenReady_succeed ⟨hparams, by rw [heng], hresult⟩
  · show EndAlike (execEksr s) (execEksr t)
    rw [execEksr_eq, execEksr_eq]
    exact h.whenReady_succeed ⟨hparams, by rw [hparams, heng], by rw [hparams, heng]⟩
  · show EndAlike (execEksb s) (execEksb t)
    rw [execEksb_eq, execEksb_eq]
    exact h.whenReady_succeed ⟨hparams, by rw [hparams, heng], by rw [hparams, heng]⟩
  · exact h.whenReady_succeed ⟨hparams, by rw [heng], hresult⟩
  · show EndAlike (execExb d s) (execExb d t)
    rw [execExb_eq, execExb_eq]
    exact h.whenReady_succeed ⟨hparams, by rw [hparams, heng], by rw [hparams, heng]⟩
  · show EndAlike (execExn d s) (execExn d t)
    rw [execExn_eq, execExn_eq]
    exact h.whenReady_succeed ⟨hparams, by rw [hparams, heng], by rw [hparams, heng]⟩

/-- A run whose first command completes goes on from the state that command leaves. -/
theorem execAll_cons {i : Instr} {is : List Instr} {s t u : State} {rs : List Word} (h : exec i s = .next t)
    (hrest : execAll is t = some (u, rs)) : execAll (i :: is) s = some (u, t.result :: rs) := by
  simp only [execAll, h, hrest]

/-- A run of the combiner's commands completes alike in blocks that are alike, result by result. -/
theorem CombinerAlike.execAll {cs : List Instr} (hcs : ∀ i ∈ cs, OnCombiner i) {s t : State}
    (h : CombinerAlike s t) :
    ∃ s' t' rs, execAll cs s = some (s', rs) ∧ execAll cs t = some (t', rs) ∧ CombinerAlike s' t' := by
  induction cs generalizing s t with
  | nil => exact ⟨s, t, [], rfl, rfl, h⟩
  | cons i is ih =>
    obtain ⟨hi, his⟩ := List.forall_mem_cons.1 hcs
    obtain ⟨s₁, t₁, hs, ht, h₁⟩ := h.exec hi
    obtain ⟨s', t', rs, hs', ht', h'⟩ := ih his h₁
    obtain ⟨-, -, hresult⟩ := h₁
    exact ⟨s', t', _, execAll_cons hs hs', by rw [hresult]; exact execAll_cons ht ht', h'⟩

/-- Settles O46: ELOAD makes the blocks alike, and the commands after it keep them so. -/
theorem sameSeedSameResults : Obligations.SameSeedSameResults := by
  unfold Obligations.SameSeedSameResults
  intro cs s₁ s₂ hcs hparams hhi hlo hresult
  have hseed : seed40 s₁ = seed40 s₂ := by rw [seed40, seed40, hhi, hlo]
  have hloaded : CombinerAlike { s₁ with eng := Combiner.ofSeed (seed40 s₁), err := .none }
      { s₂ with eng := Combiner.ofSeed (seed40 s₂), err := .none } := ⟨hparams, by rw [hseed], hresult⟩
  obtain ⟨t₁, t₂, rs, h₁, h₂, -, heng, hres⟩ := hloaded.execAll hcs
  exact ⟨t₁, t₂, _, execAll_cons (exec_eload_of_length s₁) h₁,
    (execAll_cons (exec_eload_of_length s₂) h₂).trans (by rw [hresult]), heng, hres⟩

end Sys2Proof.Machine

/-! SUPPORT. ETRN on a valid message as a stream cipher: the digits before and after differ by keystream nibbles that
the message has no part in (O45). -/

namespace Sys2Proof.Machine

/-! ## Digits (R142 to R144) -/

/-- A character of the hex set has its digit as its value (R143, R144). -/
theorem hexVal_of_hexSet {p : Params} {c : Byte} (h : hexSet p c) : hexVal p c = some (BitVec.ofNat 4 (digitOf c)) := by
  unfold hexVal digitOf
  obtain ⟨hlo, hhi⟩ | ⟨hlo, hhi⟩ | ⟨hp, hlo, hhi⟩ := h
  · rw [if_pos ⟨hlo, hhi⟩, if_pos hhi]
  · rw [if_neg (by omega), if_pos ⟨hlo, hhi⟩, if_neg (by omega), if_neg (by omega)]
  · rw [if_neg (by omega), if_neg (by omega), if_pos ⟨hp, hlo, hhi⟩, if_neg (by omega), if_pos hhi]

theorem digitOf_lt_of_hexSet {p : Params} {c : Byte} (h : hexSet p c) : digitOf c < 16 := by
  unfold digitOf
  obtain ⟨hlo, hhi⟩ | ⟨hlo, hhi⟩ | ⟨-, hlo, hhi⟩ := h
  · rw [if_pos hhi]; omega
  · rw [if_neg (by omega), if_neg (by omega)]; omega
  · rw [if_neg (by omega), if_pos hhi]; omega

theorem digitOf_hexChar (v : Nibble) : digitOf (hexChar v) = v.toNat := by
  revert v
  decide

theorem hexVals_of_hexSet {p : Params} {cs : List Byte} (h : ∀ c ∈ cs, hexSet p c) :
    hexVals p cs = some (cs.map fun c => BitVec.ofNat 4 (digitOf c)) := by
  induction cs with
  | nil => rfl
  | cons c cs ih =>
    obtain ⟨hc, hcs⟩ := List.forall_mem_cons.1 h
    rw [hexVals_cons, hexVal_of_hexSet hc, ih hcs]
    rfl

/-! ## The keystream as nibbles (R125, R146) -/

/-- Nibble `j` of the keystream: each reduced byte gives its high half first. -/
def keyNibble (p : Params) (e : Combiner) (j : Nat) : Nibble :=
  if j % 2 = 0 then highNibble (ksAt p e (j / 2)) else lowNibble (ksAt p e (j / 2))

theorem ksAfter_ksByte (p : Params) (e : Combiner) (k : Nat) :
    ksAfter p (ksByte p e).1 k = ksAfter p e (k + 1) := by
  induction k with
  | zero => rfl
  | succ k ih => rw [ksAfter, ih, ← ksAfter]

/-- After one byte is drawn the keystream goes on two nibbles later. -/
theorem keyNibble_ksByte (p : Params) (e : Combiner) (j : Nat) :
    keyNibble p (ksByte p e).1 j = keyNibble p e (j + 2) := by
  rw [keyNibble, keyNibble, ksAt, ksAt, ksAfter_ksByte, Nat.add_mod_right, Nat.add_div_right j (by decide)]

theorem highNibble_append_xor (h l : Nibble) (k : Byte) : highNibble ((h ++ l : Byte) ^^^ k) = h ^^^ highNibble k := by
  rw [highNibble, highNibble, BitVec.extractLsb'_xor, BitVec.extractLsb'_append_eq_left]

theorem lowNibble_append_xor (h l : Nibble) (k : Byte) : lowNibble ((h ++ l : Byte) ^^^ k) = l ^^^ lowNibble k := by
  rw [lowNibble, lowNibble, BitVec.extractLsb'_xor, BitVec.extractLsb'_append_eq_right]

/-- ETRN draws one byte for each pair and one for an odd last digit (R146). -/
theorem transformNibbles_fst (p : Params) :
    ∀ (e : Combiner) (ds : List Nibble), (transformNibbles p e ds).1 = ksAfter p e ((ds.length + 1) / 2)
  | _, [] => rfl
  | _, [_] => by rw [List.length_singleton]; rfl
  | e, h :: l :: rest => by
    rw [transformNibbles_pair, transformNibbles_fst p _ rest, ksAfter_ksByte, List.length_cons, List.length_cons,
      show (rest.length + 1 + 1 + 1) / 2 = (rest.length + 1) / 2 + 1 by omega]

/-- ETRN XORs digit `j` with nibble `j` of the keystream (R146). -/
theorem transformNibbles_snd (p : Params) :
    ∀ (e : Combiner) (ds : List Nibble), (transformNibbles p e ds).2 = ds.mapIdx fun j q => q ^^^ keyNibble p e j
  | _, [] => rfl
  | _, [_] => rfl
  | e, h :: l :: rest => by
    rw [transformNibbles_pair, transformNibbles_snd p _ rest, highNibble_append_xor, lowNibble_append_xor,
      List.mapIdx_cons, List.mapIdx_cons]
    simp only [keyNibble_ksByte]
    rfl

/-! ## ETRN on a valid message (R145, R146) -/

theorem digitsOf_length (s : State) : (digitsOf s).length = s.msglen.toNat - 2 := by
  rw [digitsOf, List.length_map, List.length_range]

theorem digitsOf_getElem (s : State) {j : Nat} (hj : j < (digitsOf s).length) :
    (digitsOf s)[j] = BitVec.ofNat 4 (digitOf (s.msgIn (2 + j))) := by
  simp only [digitsOf, List.getElem_map, List.getElem_range]

/-- The characters after the marker, one by one. -/
theorem msgBody_eq_map (s : State) :
    s.msgBody = (List.range (s.msglen.toNat - 2)).map fun k => s.msgIn (2 + k) := by
  refine List.ext_getElem (by simp [State.msgBody, markerLen]) fun j hj _ => ?_
  rw [List.getElem_map, List.getElem_range]
  exact (s.readBytes_getElem _ _ hj).trans (congrArg s.readByte (Nat.add_assoc 0x100 2 j))

theorem ValidMessage.hexVals_msgBody {s : State} (h : ValidMessage s) :
    hexVals s.params s.msgBody = some (digitsOf s) := by
  obtain ⟨-, -, hset⟩ := h
  rw [msgBody_eq_map, hexVals_of_hexSet, List.map_map]
  · rfl
  · intro c hc
    obtain ⟨k, hk, rfl⟩ := List.mem_map.1 hc
    exact hset (2 + k) (by have := List.mem_range.1 hk; omega) (by omega)

/-- A valid message passes every check (R145). -/
theorem exec_etrn_of_valid {s : State} (hv : s.eng.valid = true) (h : ValidMessage s) :
    exec .etrn s = .next (etrnDone s (digitsOf s)) := by
  obtain ⟨hlo, hhi, -⟩ := id h
  refine (execEtrn_eq s).trans ?_
  rw [hv, whenReady_true, if_neg (show ¬ msgMax < s.msglen.toNat from Nat.not_lt.2 hhi),
    if_neg (show ¬ s.msglen.toNat < markerLen from Nat.not_lt.2 hlo), h.hexVals_msgBody]

/-- The character ETRN writes for digit `j` (R146). -/
theorem etrnDone_msgOut (s : State) {ds : List Nibble} {j : Nat} (hj : j < ds.length) :
    (etrnDone s ds).msgOut (2 + j) = hexChar (ds[j] ^^^ keyNibble s.params { s.eng with carry := false } j) := by
  have hread := s.readByte_writeBytes_inside (msgOutAddr 0) (j := 2 + j)
    (s.msgIn 0 :: s.msgIn 1 :: (transformNibbles s.params { s.eng with carry := false } ds).2.map hexChar)
    (by simp only [transformNibbles_snd, List.length_cons, List.length_map, List.length_mapIdx]; omega)
  refine hread.trans ?_
  simp only [Nat.add_comm 2 j, List.getElem_cons_succ, List.getElem_map, transformNibbles_snd, List.getElem_mapIdx]

/-- The digit ETRN reads and the digit it writes differ by the keystream's nibble. -/
theorem etrnDone_digit_xor {s : State} (h : ValidMessage s) {k : Nat} (hk : 2 ≤ k) (hlen : k < s.msglen.toNat) :
    digitOf (s.msgIn k) ^^^ digitOf ((etrnDone s (digitsOf s)).msgOut k) =
      (keyNibble s.params { s.eng with carry := false } (k - 2)).toNat := by
  obtain ⟨-, -, hset⟩ := h
  obtain ⟨j, rfl⟩ := Nat.exists_eq_add_of_le hk
  rw [etrnDone_msgOut s (by rw [digitsOf_length]; omega), digitOf_hexChar, digitsOf_getElem, BitVec.toNat_xor,
    BitVec.toNat_ofNat, Nat.mod_eq_of_lt (digitOf_lt_of_hexSet (hset _ hlen hk)), ← Nat.xor_assoc, Nat.xor_self,
    Nat.zero_xor, Nat.add_sub_cancel_left]

/-- Settles O45: the combiner after ETRN depends on the message's length alone, and so does each digit's difference. -/
theorem keystreamIgnoresThePlaintext : Obligations.KeystreamIgnoresThePlaintext := by
  unfold Obligations.KeystreamIgnoresThePlaintext
  intro s₁ s₂ hparams heng hv hmsglen h₁ h₂
  refine ⟨_, _, exec_etrn_of_valid hv h₁, exec_etrn_of_valid (heng ▸ hv) h₂, ?_, fun k hk hlen => ?_⟩
  · show (transformNibbles _ _ _).1 = (transformNibbles _ _ _).1
    rw [transformNibbles_fst, transformNibbles_fst, digitsOf_length, digitsOf_length, hparams, heng, hmsglen]
  · rw [etrnDone_digit_xor h₁ hk hlen, etrnDone_digit_xor h₂ hk (hmsglen ▸ hlen), hparams, heng]

end Sys2Proof.Machine

/-! SUPPORT. The cipher unit: EXB and EXN, the hex characters, ETRN character by character, ETRN as a run of byte
commands, and the round trip (O40 to O44, O47, O48). -/

namespace Sys2Proof.Machine

/-! ## EXB and EXN (R140, R141) -/

theorem fieldD_eq_iff (w : Word) (d : Byte) : fieldD w = d ↔ d.toNat = w.toNat / 2 ^ 16 % 256 := by
  rw [← BitVec.toNat_inj, fieldD, BitVec.extractLsb'_toNat, Nat.shiftRight_eq_div_pow, eq_comm]

theorem decode_exb_iff (w : Word) (d : Byte) :
    decode w = .ok (.exb d) ↔ w &&& 0xFF00FFFF = 0x0000000A ∧ d.toNat = w.toNat / 2 ^ 16 % 256 := by
  rw [decode_eq_ok_iff_row (fun h => by rw [decode, h]; rfl) ⟨by decide, rfl⟩, Instr.exb.injEq, fieldD_eq_iff]

theorem decode_exn_iff (w : Word) (d : Byte) :
    decode w = .ok (.exn d) ↔ w &&& 0xFFF0FFFF = 0x0000000B ∧ d.toNat = w.toNat / 2 ^ 16 % 256 := by
  rw [decode_eq_ok_iff_row (fun h => by rw [decode, h]; rfl) ⟨by decide, rfl⟩, Instr.exn.injEq, fieldD_eq_iff]

theorem exec_exb_of_valid (d : Byte) {s : State} (hv : s.eng.valid = true) :
    exec (.exb d) s = .next
      { s with
        eng := (ksByte s.params s.eng).1
        result := (d ^^^ (ksByte s.params s.eng).2).setWidth 32
        err := .none } :=
  (execExb_eq d s).trans (whenReady_succeed_of_valid hv s _)

theorem exec_exn_of_valid (d : Byte) {s : State} (hv : s.eng.valid = true) :
    exec (.exn d) s = .next
      { s with
        eng := (ksByte s.params s.eng).1
        result := (exnNibble d ^^^ highNibble (ksByte s.params s.eng).2).setWidth 32
        err := .none } :=
  (execExn_eq d s).trans (whenReady_succeed_of_valid hv s _)

theorem exnNibble_toNat (d : Byte) : (exnNibble d).toNat = d.toNat % 16 := by
  rw [exnNibble, BitVec.extractLsb'_toNat, Nat.shiftRight_zero]

theorem highNibble_toNat (b : Byte) : (highNibble b).toNat = b.toNat / 16 := by
  rw [highNibble, BitVec.extractLsb'_toNat, Nat.shiftRight_eq_div_pow]
  omega

/-- An XOR written to RESULT is the XOR of the values. -/
theorem setWidth_xor_eq_ofNat {w : Nat} (x y : BitVec w) (n : Nat) :
    (x ^^^ y).setWidth n = BitVec.ofNat n (x.toNat ^^^ y.toNat) := by
  rw [← BitVec.toNat_xor, BitVec.ofNat_toNat]

/-- Settles O40: the row of R74, and the two answers of the configured check. -/
theorem exbXorsAByte : Obligations.ExbXorsAByte := by
  unfold Obligations.ExbXorsAByte
  refine ⟨decode_exb_iff, fun d s hv => whenReady_of_not_valid hv s _, fun d s hv => ?_⟩
  rw [exec_exb_of_valid d hv, setWidth_xor_eq_ofNat]

/-- Settles O41: the row of R74, the two answers of the configured check, and the two nibbles as values. -/
theorem exnXorsANibble : Obligations.ExnXorsANibble := by
  unfold Obligations.ExnXorsANibble
  refine ⟨decode_exn_iff, fun d s hv => whenReady_of_not_valid hv s _, fun d s hv => ?_⟩
  rw [exec_exn_of_valid d hv, setWidth_xor_eq_ofNat, exnNibble_toNat, highNibble_toNat]

/-! ## Hex characters (R142 to R144) -/

theorem hexChar_toNat (v : Nibble) :
    (hexChar v).toNat = if v.toNat ≤ 9 then 0x30 + v.toNat else 0x61 + (v.toNat - 10) := by
  unfold hexChar
  split_ifs with h <;> rw [BitVec.toNat_ofNat] <;> omega

/-- A character outside the hex set has no value (R144). -/
theorem hexVal_of_not_hexSet {p : Params} {c : Byte} (h : ¬ hexSet p c) : hexVal p c = none := by
  obtain ⟨hdigit, hlower, hupper⟩ : _ ∧ _ ∧ _ := by rwa [hexSet, not_or, not_or] at h
  rw [hexVal, if_neg hdigit, if_neg hlower, if_neg hupper]

theorem isHex_iff (p : Params) (c : Byte) : isHex p c = true ↔ hexSet p c := by
  rw [isHex]
  by_cases h : hexSet p c
  · rw [hexVal_of_hexSet h]
    exact iff_of_true rfl h
  · rw [hexVal_of_not_hexSet h]
    exact iff_of_false Bool.false_ne_true h

/-- Settles O42: the characters written, the characters accepted, and their values. -/
theorem hexCharacters : Obligations.HexCharacters := by
  unfold Obligations.HexCharacters
  refine ⟨hexChar_toNat, isHex_iff, fun p c h => ?_⟩
  rw [hexVal_of_hexSet h, Option.map_some, BitVec.toNat_ofNat, Nat.mod_eq_of_lt (digitOf_lt_of_hexSet h)]

/-- What hexchar writes is a digit in lower case (R142). -/
theorem lowercaseDigit_hexChar (v : Nibble) : lowercaseDigit (hexChar v) := by
  rw [lowercaseDigit, hexChar_toNat]
  split_ifs <;> omega

/-- A digit in lower case is a hex digit under either value of ACCEPT_UPPERCASE (R144). -/
theorem hexSet_of_lowercaseDigit (p : Params) {c : Byte} (h : lowercaseDigit c) : hexSet p c :=
  h.imp_right .inl

/-- hexchar writes a digit in lower case back as it was (R142, R143). -/
theorem hexChar_digitOf {c : Byte} (h : lowercaseDigit c) : hexChar (BitVec.ofNat 4 (digitOf c)) = c := by
  refine BitVec.eq_of_toNat_eq ?_
  rw [hexChar_toNat, BitVec.toNat_ofNat, digitOf]
  split_ifs <;> omega

/-! ## ETRN's checks (R145) -/

theorem exec_etrn_of_too_long {s : State} (hv : s.eng.valid = true) (h : 256 < s.msglen.toNat) :
    exec .etrn s = .next { s with err := .range, errSeen := true } := by
  refine (execEtrn_eq s).trans ?_
  rw [hv, whenReady_true, if_pos (show msgMax < s.msglen.toNat from h), raiseError]

theorem exec_etrn_of_too_short {s : State} (hv : s.eng.valid = true) (h : s.msglen.toNat < 2) :
    exec .etrn s = .next { s with err := .format, errSeen := true } := by
  refine (execEtrn_eq s).trans ?_
  rw [hv, whenReady_true, if_neg (show ¬ msgMax < s.msglen.toNat by unfold msgMax; omega),
    if_pos (show s.msglen.toNat < markerLen from h), raiseError]

/-- A character after the marker that is no hex digit leaves the message without values. -/
theorem hexVals_msgBody_eq_none {s : State} {k : Nat} (hlo : 2 ≤ k) (hlen : k < s.msglen.toNat)
    (hk : ¬ hexSet s.params (s.msgIn k)) : hexVals s.params s.msgBody = none := by
  have hmem : s.msgIn k ∈ s.msgBody := by
    rw [msgBody_eq_map]
    exact List.mem_map.2 ⟨k - 2, List.mem_range.2 (by omega), by rw [Nat.add_sub_cancel' hlo]⟩
  refine Option.not_isSome_iff_eq_none.1 fun hsome => hk ((isHex_iff _ _).1 ?_)
  exact (hexVals_isSome_iff _ _).1 hsome _ hmem

theorem exec_etrn_of_not_hexSet {s : State} {k : Nat} (hv : s.eng.valid = true) (hmax : s.msglen.toNat ≤ 256)
    (hlo : 2 ≤ k) (hlen : k < s.msglen.toNat) (hk : ¬ hexSet s.params (s.msgIn k)) :
    exec .etrn s = .next { s with err := .format, errSeen := true } := by
  refine (execEtrn_eq s).trans ?_
  rw [hv, whenReady_true, if_neg (show ¬ msgMax < s.msglen.toNat from Nat.not_lt.2 hmax),
    if_neg (show ¬ s.msglen.toNat < markerLen by unfold markerLen; omega), hexVals_msgBody_eq_none hlo hlen hk,
    raiseError]

/-- Settles O43: one branch of the command for each clause. -/
theorem etrnChecksTheWholeMessage : Obligations.EtrnChecksTheWholeMessage := by
  unfold Obligations.EtrnChecksTheWholeMessage
  exact ⟨fun s hv => whenReady_of_not_valid hv s _, fun s hv h => exec_etrn_of_too_long hv h,
    fun s hv h => exec_etrn_of_too_short hv h,
    fun s k hv hmax hlo hlen hk => exec_etrn_of_not_hexSet hv hmax hlo hlen hk,
    fun s hv h => ⟨_, exec_etrn_of_valid hv h, rfl⟩⟩

/-! ## ETRN's effect, character by character (R146) -/

/-- ETRN changes the buffers, the combiner, RESULT and ERR, and draws one byte for every two digits. -/
theorem etrnDone_eq (s : State) (ds : List Nibble) :
    etrnDone s ds = { s with
      buf := (etrnDone s ds).buf
      eng := ksAfter s.params { s.eng with carry := false } ((ds.length + 1) / 2)
      result := s.msglen.setWidth 32
      err := .none } := by
  rw [etrnDone, State.writeBytes_eq, transformNibbles_fst]

/-- The marker passes through (R146). -/
theorem etrnDone_msgOut_marker (s : State) (ds : List Nibble) {k : Nat} (hk : k < 2) :
    (etrnDone s ds).msgOut k = s.msgIn k := by
  have hread := s.readByte_writeBytes_inside (msgOutAddr 0) (j := k)
    (s.msgIn 0 :: s.msgIn 1 :: (transformNibbles s.params { s.eng with carry := false } ds).2.map hexChar)
    (by rw [List.length_cons, List.length_cons]; omega)
  refine hread.trans ?_
  match k, hk with
  | 0, _ => rfl
  | 1, _ => rfl

/-- The character ETRN writes at each place after the marker (R146). -/
theorem etrnDone_msgOut_digit {s : State} {k : Nat} (hk : 2 ≤ k) (hlen : k < s.msglen.toNat) :
    (etrnDone s (digitsOf s)).msgOut k =
      hexChar (BitVec.ofNat 4 (digitOf (s.msgIn k)) ^^^
        keyNibble s.params { s.eng with carry := false } (k - 2)) := by
  obtain ⟨j, rfl⟩ := Nat.exists_eq_add_of_le hk
  rw [etrnDone_msgOut s (by rw [digitsOf_length]; omega), digitsOf_getElem, Nat.add_sub_cancel_left]

theorem keyNibble_even (p : Params) (e : Combiner) (j : Nat) : keyNibble p e (2 * j) = highNibble (ksAt p e j) := by
  rw [keyNibble, if_pos (Nat.mul_mod_right 2 j), Nat.mul_div_cancel_left j (by decide)]

theorem keyNibble_odd (p : Params) (e : Combiner) (j : Nat) :
    keyNibble p e (2 * j + 1) = lowNibble (ksAt p e j) := by
  rw [keyNibble, if_neg (by omega), show (2 * j + 1) / 2 = j by omega]

theorem highNibble_eq_ofNat (b : Byte) : highNibble b = BitVec.ofNat 4 (b.toNat / 16) := by
  rw [← highNibble_toNat, BitVec.ofNat_toNat, BitVec.setWidth_eq]

theorem lowNibble_eq_ofNat (b : Byte) : lowNibble b = BitVec.ofNat 4 (b.toNat % 16) := by
  rw [← exnNibble_toNat, BitVec.ofNat_toNat, BitVec.setWidth_eq]
  rfl

/-- The first digit of a transformed pair (R146). -/
theorem ofNat_pair_xor_div (a : Nat) {b : Nat} (hb : b < 16) (k : Byte) :
    BitVec.ofNat 4 (((a * 16 + b) ^^^ k.toNat) / 16) = BitVec.ofNat 4 a ^^^ highNibble k := by
  have hdiv : ((a * 16 + b) ^^^ k.toNat) / 16 = (a * 16 + b) / 16 ^^^ k.toNat / 16 := Nat.xor_div_two_pow (n := 4)
  rw [hdiv, BitVec.ofNat_xor, highNibble_eq_ofNat, show (a * 16 + b) / 16 = a by omega]

/-- The second digit of a transformed pair (R146). -/
theorem ofNat_pair_xor_mod (a : Nat) {b : Nat} (hb : b < 16) (k : Byte) :
    BitVec.ofNat 4 (((a * 16 + b) ^^^ k.toNat) % 16) = BitVec.ofNat 4 b ^^^ lowNibble k := by
  have hmod : ((a * 16 + b) ^^^ k.toNat) % 16 = (a * 16 + b) % 16 ^^^ k.toNat % 16 := Nat.xor_mod_two_pow (n := 4)
  rw [hmod, BitVec.ofNat_xor, lowNibble_eq_ofNat, show (a * 16 + b) % 16 = b by omega]

/-- Both characters that ETRN writes for a pair of digits (R146). -/
theorem etrnDone_msgOut_pair {s : State} (h : ValidMessage s) {j : Nat} (hj : 3 + 2 * j < s.msglen.toNat) :
    let o := (digitOf (s.msgIn (2 + 2 * j)) * 16 + digitOf (s.msgIn (3 + 2 * j))) ^^^
      (ksAt s.params { s.eng with carry := false } j).toNat
    (etrnDone s (digitsOf s)).msgOut (2 + 2 * j) = hexChar (BitVec.ofNat 4 (o / 16)) ∧
      (etrnDone s (digitsOf s)).msgOut (3 + 2 * j) = hexChar (BitVec.ofNat 4 (o % 16)) := by
  obtain ⟨-, -, hset⟩ := h
  have hlow : digitOf (s.msgIn (3 + 2 * j)) < 16 := digitOf_lt_of_hexSet (hset _ hj (by omega))
  dsimp only
  rw [ofNat_pair_xor_div _ hlow, ofNat_pair_xor_mod _ hlow, etrnDone_msgOut_digit (by omega) (by omega),
    etrnDone_msgOut_digit (by omega) hj, show 2 + 2 * j - 2 = 2 * j by omega,
    show 3 + 2 * j - 2 = 2 * j + 1 by omega, keyNibble_even, keyNibble_odd]
  exact ⟨rfl, rfl⟩

/-- The character that ETRN writes for an odd last digit (R146). -/
theorem etrnDone_msgOut_tail {s : State} (hlo : 2 ≤ s.msglen.toNat) (hodd : s.msglen.toNat % 2 = 1) :
    (etrnDone s (digitsOf s)).msgOut (s.msglen.toNat - 1) =
      hexChar (BitVec.ofNat 4 (digitOf (s.msgIn (s.msglen.toNat - 1)) ^^^
        (ksAt s.params { s.eng with carry := false } ((s.msglen.toNat - 3) / 2)).toNat / 16)) := by
  rw [etrnDone_msgOut_digit (by omega) (by omega), BitVec.ofNat_xor, ← highNibble_eq_ofNat, ← keyNibble_even,
    show s.msglen.toNat - 1 - 2 = 2 * ((s.msglen.toNat - 3) / 2) by omega]

/-- Settles O44: the frame of a transformed message, and its characters by place: the marker, the pairs, the tail. -/
theorem etrnTransformsTheMessage : Obligations.EtrnTransformsTheMessage := by
  unfold Obligations.EtrnTransformsTheMessage
  refine ⟨decode_eq_ok_iff_eq rfl (by decide), fun s hv h => ?_⟩
  have hexec := exec_etrn_of_valid hv h
  obtain ⟨hlo, -, -⟩ := id h
  refine ⟨_, hexec, ?_, fun a ha => ?_, etrnDone_msgOut_marker s _ (by decide), etrnDone_msgOut_marker s _ (by decide),
    fun j hj => etrnDone_msgOut_pair h hj, etrnDone_msgOut_tail hlo⟩
  · have hcount : (s.msglen.toNat - 1) / 2 = ((digitsOf s).length + 1) / 2 := by rw [digitsOf_length]; omega
    rw [BitVec.ofNat_toNat, hcount]
    exact etrnDone_eq s (digitsOf s)
  · exact ha.elim (execEtrn_readByte_below hexec) (execEtrn_readByte_above hexec)

/-! ## ETRN as a run of byte commands (R147) -/

theorem exnNibble_setWidth (q : Nibble) : exnNibble (q.setWidth 8) = q := by
  rw [exnNibble, BitVec.extractLsb'_setWidth_of_le (by decide), BitVec.extractLsb'_eq_self]

/-- The digit of an EXN's result (R141, R147). -/
theorem resultDigits_exn (d : Byte) (v : Nibble) (is : List Instr) (rs : List Word) :
    resultDigits (.exn d :: is) (v.setWidth 32 :: rs) = hexChar v :: resultDigits is rs := by
  rw [resultDigits, BitVec.extractLsb'_setWidth_of_le (by decide), BitVec.extractLsb'_eq_self]

/-- The digits of an EXB's result (R140, R147). -/
theorem resultDigits_exb (d b : Byte) (is : List Instr) (rs : List Word) :
    resultDigits (.exb d :: is) (b.setWidth 32 :: rs) =
      hexChar (highNibble b) :: hexChar (lowNibble b) :: resultDigits is rs := by
  rw [resultDigits, BitVec.extractLsb'_setWidth_of_le (by decide), BitVec.extractLsb'_setWidth_of_le (by decide),
    highNibble, lowNibble]

/-- The byte and nibble commands draw and transform as ETRN's loop does (R146, R147). -/
theorem execAll_digitCommands :
    ∀ (ds : List Nibble) {s : State}, s.eng.valid = true →
      ∃ u rs, execAll (digitCommands ds) s = some (u, rs) ∧ u.eng = (transformNibbles s.params s.eng ds).1 ∧
        resultDigits (digitCommands ds) rs = (transformNibbles s.params s.eng ds).2.map hexChar
  | [], s, _ => ⟨s, [], rfl, rfl, rfl⟩
  | [q], s, hv => by
    have hexn := exec_exn_of_valid (q.setWidth 8) hv
    refine ⟨_, _, execAll_cons hexn rfl, rfl, ?_⟩
    rw [digitCommands, resultDigits_exn, exnNibble_setWidth]
    rfl
  | h :: l :: rest, s, hv => by
    have hexb := exec_exb_of_valid (h ++ l) hv
    obtain ⟨u, rs, hrun, heng, hdigits⟩ := execAll_digitCommands rest
      (s := { s with
        eng := (ksByte s.params s.eng).1
        result := ((h ++ l) ^^^ (ksByte s.params s.eng).2).setWidth 32
        err := .none }) hv
    refine ⟨u, _, execAll_cons hexb hrun, heng, ?_⟩
    rw [digitCommands, resultDigits_exb, hdigits]
    rfl

theorem exec_ebeg_of_valid {s : State} (hv : s.eng.valid = true) :
    exec .ebeg s = .next { s with eng := { s.eng with carry := false }, err := .none } :=
  whenReady_succeed_of_valid hv s _

/-- Settles O47: after EBEG the run starts where ETRN's loop does. -/
theorem etrnIsAByteCommandRun : Obligations.EtrnIsAByteCommandRun := by
  unfold Obligations.EtrnIsAByteCommandRun
  intro s hv h
  obtain ⟨u, rs, hrun, heng, hdigits⟩ := execAll_digitCommands (digitsOf s)
    (s := { s with eng := { s.eng with carry := false }, err := .none }) hv
  refine ⟨_, u, _, exec_etrn_of_valid hv h, execAll_cons (exec_ebeg_of_valid hv) hrun, ?_, ?_, ?_, fun k hk hlen => ?_⟩
  · rw [heng]; rfl
  · rw [heng]; rfl
  · rw [heng]; rfl
  · have hj : k - 2 < (digitsOf s).length := by rw [digitsOf_length]; omega
    rw [List.tail_cons, hdigits, transformNibbles_snd, etrnDone_msgOut_digit hk hlen, List.getElem?_map,
      List.getElem?_mapIdx, List.getElem?_eq_getElem hj, digitsOf_getElem, Nat.add_sub_cancel' hk]
    rfl

/-! ## The round trip (R148) -/

/-- The commands that take the combiner back to the start of the keystream of `s`: ERST, or ELOAD of the seed it was
built from. -/
def RestoresCombiner (s : State) (restore : Instr) : Prop :=
  restore = .erst ∨ (restore = .eload 40 ∧ init17 (seed40 s) = s.eng.i17 ∧ init25 (seed40 s) = s.eng.i25)

/-- After ETRN such a command brings back the combiner, with the carry 0, and keeps MSGOUT (R121, R122). -/
theorem exec_restore_etrnDone {s : State} {restore : Instr} (h : RestoresCombiner s restore)
    (hv : s.eng.valid = true) (h17 : s.eng.s17 = s.eng.i17) (h25 : s.eng.s25 = s.eng.i25) (ds : List Nibble) :
    ∃ u, exec restore (etrnDone s ds) = .next u ∧ u.params = s.params ∧
      u.eng = { s.eng with carry := false } ∧ ∀ k, u.msgOut k = (etrnDone s ds).msgOut k := by
  obtain ⟨-, hi17, hi25, hvalid⟩ := transformNibbles_frame s.params { s.eng with carry := false } ds
  have hframe := etrnDone_eq s ds
  have hparams : (etrnDone s ds).params = s.params := by rw [hframe]
  obtain rfl | ⟨rfl, hseed17, hseed25⟩ := h
  · refine ⟨_, whenReady_succeed_of_valid (hvalid.trans hv) _ _, hparams, ?_, fun k => rfl⟩
    rw [Combiner.mk.injEq]
    exact ⟨hi17.trans h17.symm, hi17, hi25.trans h25.symm, hi25, rfl, hvalid⟩
  · have hseed : seed40 (etrnDone s ds) = seed40 s := by rw [hframe]; rfl
    refine ⟨_, exec_eload_of_length _, hparams, ?_, fun k => rfl⟩
    show Combiner.ofSeed (seed40 (etrnDone s ds)) = _
    rw [hseed, Combiner.ofSeed, hseed17, hseed25, Combiner.mk.injEq]
    exact ⟨h17.symm, rfl, h25.symm, rfl, rfl, hv.symm⟩

section SecondPass

variable {s v : State} (hmsglen : v.msglen = s.msglen)
  (hin : ∀ k, k < s.msglen.toNat → v.msgIn k = (etrnDone s (digitsOf s)).msgOut k)
include hmsglen hin

/-- What ETRN writes is a valid message again (R148). -/
theorem validMessage_of_etrnDone (h : ValidMessage s) : ValidMessage v := by
  obtain ⟨hlo, hhi, -⟩ := h
  rw [← hmsglen] at hlo hhi
  refine ⟨hlo, hhi, fun k hlen hk => hexSet_of_lowercaseDigit _ ?_⟩
  rw [hmsglen] at hlen
  rw [hin k hlen, etrnDone_msgOut_digit hk hlen]
  exact lowercaseDigit_hexChar _

/-- The second pass XORs each digit with the nibble that the first one did (R148). -/
theorem etrnDone_msgOut_second (hparams : v.params = s.params) (heng : v.eng = { s.eng with carry := false }) {k : Nat}
    (hk : 2 ≤ k) (hlen : k < s.msglen.toNat) :
    (etrnDone v (digitsOf v)).msgOut k = hexChar (BitVec.ofNat 4 (digitOf (s.msgIn k))) := by
  rw [etrnDone_msgOut_digit hk (hmsglen ▸ hlen), hin k hlen, etrnDone_msgOut_digit hk hlen, digitOf_hexChar,
    BitVec.ofNat_toNat, BitVec.setWidth_eq, hparams, heng, BitVec.xor_assoc, BitVec.xor_self, BitVec.xor_zero]

end SecondPass

/-- Settles O48: the restored combiner draws the first pass's keystream again, which cancels in each digit. -/
theorem roundTripReturnsTheMessage : Obligations.RoundTripReturnsTheMessage := by
  unfold Obligations.RoundTripReturnsTheMessage
  intro s restore hv h h17 h25 hrestore
  obtain ⟨u, hu, huparams, hueng, hout⟩ := exec_restore_etrnDone hrestore hv h17 h25 (digitsOf s)
  refine ⟨_, u, exec_etrn_of_valid hv h, hu, fun v hparams heng hmsglen hmsg => ?_⟩
  rw [huparams] at hparams
  rw [hueng] at heng
  have hin : ∀ k, k < s.msglen.toNat → v.msgIn k = (etrnDone s (digitsOf s)).msgOut k :=
    fun k hk => (hmsg k hk).trans (hout k)
  obtain ⟨hlo, -, -⟩ := id h
  have hmarker : ∀ k, k < 2 → (etrnDone v (digitsOf v)).msgOut k = s.msgIn k := fun k hk => by
    rw [etrnDone_msgOut_marker v _ hk, hin k (by omega), etrnDone_msgOut_marker s _ hk]
  have hdigit : ∀ k, 2 ≤ k → k < s.msglen.toNat →
      (etrnDone v (digitsOf v)).msgOut k = hexChar (BitVec.ofNat 4 (digitOf (s.msgIn k))) :=
    fun k hk hlen => etrnDone_msgOut_second hmsglen hin hparams heng hk hlen
  refine ⟨_, exec_etrn_of_valid (by rw [heng]; exact hv) (validMessage_of_etrnDone hmsglen hin h),
    hmarker 0 (by decide), hmarker 1 (by decide), hdigit, fun hlower k hlen => ?_⟩
  by_cases hk : 2 ≤ k
  · rw [hdigit k hk hlen, hexChar_digitOf (hlower k hk hlen)]
  · exact hmarker k (by omega)

end Sys2Proof.Machine

/-! SUPPORT. Errors and runs: a CMD write ends with success or with one code, the code is the first failing check's, and
allowed accesses never stop a run (O5, O6, O8). -/

namespace Sys2Proof.Machine

/-! ## Success or one code (R160, R163, R164) -/

/-- Settles O5: a rejected word raises ILLEGAL, and a command that completes raised a code or succeeded. -/
theorem everyCommandWordCompletes : Obligations.EveryCommandWordCompletes := by
  unfold Obligations.EveryCommandWordCompletes
  intro w s rest
  cases hd : decode w with
  | error r => exact ⟨_, step_of_decode_error hd s rest, .inr ⟨ErrCode.noConfusion, rfl⟩⟩
  | ok i =>
    obtain ⟨t, ht⟩ := exec_completes i { s with pending := rest }
    refine ⟨t, (step_of_decode_ok hd s rest).trans ht, ?_⟩
    obtain ⟨c, hc, rfl⟩ | hsucc := exec_cases ht
    · exact .inr ⟨hc, rfl⟩
    · exact .inl hsucc.err_errSeen

/-! ## The code of each command (R161, R165) -/

/-- The code each command ends with: the rows of R161 read by command, NOTREADY before the operands' checks. -/
def commandError : Instr → State → ErrCode
  | .lcfg a b, _ => if a ≠ b ∨ a.toNat = 0 ∨ 32 < a.toNat then .config else .none
  | .lseq k, s => if s.gen.valid = false then .notReady else if 32 < k.toNat then .range else .none
  | .eload n, _ => if n.toNat ≠ 40 then .config else .none
  | .etrn, s =>
    if s.eng.valid = false then .notReady
    else if 256 < s.msglen.toNat then .range
    else if s.msglen.toNat < 2 ∨ ∃ k, k < s.msglen.toNat ∧ 2 ≤ k ∧ ¬ hexSet s.params (s.msgIn k) then .format
    else .none
  | .lrst, s | .lnxt, s => if s.gen.valid = false then .notReady else .none
  | .erst, s | .eksr, s | .eksb, s | .ebeg, s | .exb _, s | .exn _, s =>
    if s.eng.valid = false then .notReady else .none

/-- The code after a checked command is NOTREADY or that of the body (R162, R165). -/
theorem whenReady_err {v : Bool} {s t : State} {body : Answer} {c : ErrCode} (h : whenReady v s body = .next t)
    (hbody : body = .next t → t.err = c) : t.err = if v = false then .notReady else c := by
  obtain ⟨rfl, h⟩ | ⟨rfl, rfl⟩ := (whenReady_next_iff v s t body).1 h
  · exact hbody h
  · rfl

theorem err_of_raiseError {c : ErrCode} {s t : State} (h : raiseError c s = .next t) : t.err = c := by
  rw [(raiseError_next_iff c s t).1 h]

theorem err_of_succeed {u t : State} (h : succeed u = .next t) : t.err = .none := by
  rw [(succeed_next_iff u t).1 h]

/-- ETRN's checks (R145), each by the state the command ends in. -/
theorem exec_etrn_err {s t : State} (h : exec .etrn s = .next t) : t.err = commandError .etrn s := by
  have hend {u : State} (hu : exec .etrn s = .next u) : t = u := Host.Outcome.next.inj (h.symm.trans hu)
  obtain hv | hv := s.eng.valid.eq_false_or_eq_true.symm
  · rw [hend (whenReady_of_not_valid hv s _), commandError, if_pos hv]
  · rw [commandError, if_neg (by simp [hv])]
    split_ifs with hlong hbad
    · rw [hend (exec_etrn_of_too_long hv hlong)]
    · obtain hshort | ⟨k, hlen, hk, hset⟩ := hbad
      · rw [hend (exec_etrn_of_too_short hv hshort)]
      · rw [hend (exec_etrn_of_not_hexSet hv (Nat.not_lt.1 hlong) hk hlen hset)]
    · obtain ⟨hshort, hset⟩ := not_or.1 hbad
      have hvalid : ValidMessage s :=
        ⟨Nat.not_lt.1 hshort, Nat.not_lt.1 hlong, fun k hlen hk => by_contra fun hc => hset ⟨k, hlen, hk, hc⟩⟩
      rw [hend (exec_etrn_of_valid hv hvalid), etrnDone]

/-- Every command ends with its code. -/
theorem exec_err {i : Instr} {s t : State} (h : exec i s = .next t) : t.err = commandError i s := by
  cases i with
  | lcfg a b =>
    replace h : execLcfg a b s = .next t := h
    unfold execLcfg nMax at h
    simp only [commandError]
    split_ifs at h with hne hlen
    · rw [err_of_raiseError h, if_pos (.inl hne)]
    · rw [err_of_raiseError h, if_pos (.inr hlen)]
    · rw [err_of_succeed h, if_neg (not_or.2 ⟨hne, hlen⟩)]
  | lseq k =>
    refine whenReady_err ((execLseq_eq k s).symm.trans h) fun h => ?_
    unfold lseqMax at h
    split_ifs at h ⊢
    · exact err_of_raiseError h
    · exact err_of_succeed h
  | eload n =>
    replace h : execEload n s = .next t := h
    unfold execEload seedBits at h
    simp only [commandError]
    split_ifs at h ⊢
    · exact err_of_raiseError h
    · exact err_of_succeed h
  | etrn => exact exec_etrn_err h
  | _ => exact whenReady_err h err_of_succeed

/-! ## The first failing check (R165) -/

theorem toNat_mod_sixteen_of_decode {w : Word} {i : Instr} (h : decode w = .ok i) :
    w.toNat % 16 = (Laws.opcode i).toNat := by
  rw [← fieldOp_toNat, ← fieldOp_encode, (encode_of_decode h).2]

/-- What FORMAT reports: the message of ETRN is too short, or a character after the marker is no hex digit (R161). -/
theorem badMessage_iff (w : Word) (s : State) :
    badMessage w s = true ↔ w.toNat % 16 = 12 ∧
      (s.msglen.toNat < 2 ∨ ∃ k, k < s.msglen.toNat ∧ 2 ≤ k ∧ ¬ hexSet s.params (s.msgIn k)) := by
  simp only [badMessage, Bool.and_eq_true, Bool.or_eq_true, decide_eq_true_eq, List.any_eq_true, List.mem_range,
    Bool.not_eq_true', decide_eq_false_iff_not]

/-- The checks of R165 on the word of a command give the command's own code. -/
theorem errorDue_of_decode {w : Word} {i : Instr} (h : decode w = .ok i) (s : State) :
    errorDue w s = commandError i s := by
  have hop := toNat_mod_sixteen_of_decode h
  have hlegal : legalWord w = true := (decode_ok_iff_legalWord w).1 ⟨i, h⟩
  simp only [errorDue, hlegal, unitMissing, outOfRange, badLength, badMessage_iff, hop]
  cases i with
  | lcfg a b =>
    obtain ⟨-, ha, hb⟩ := (decode_lcfg_iff w a b).1 h
    simp [Laws.opcode, commandError, ← BitVec.toNat_inj, ha, hb]
  | lseq k =>
    obtain ⟨-, hk⟩ := (decode_lseq_iff w k).1 h
    simp [Laws.opcode, commandError, hk]
  | eload n =>
    obtain ⟨-, hn⟩ := (decode_eload_iff w n).1 h
    simp [Laws.opcode, commandError, hn]
  | _ => simp [Laws.opcode, commandError]

/-- Settles O6: a word without a row is ILLEGAL, and the word of a command has that command's code. -/
theorem firstFailingCheckGivesTheCode : Obligations.FirstFailingCheckGivesTheCode := by
  unfold Obligations.FirstFailingCheckGivesTheCode
  intro w s rest
  cases hd : decode w with
  | error r =>
    have hillegal : legalWord w = false :=
      Bool.eq_false_iff.2 fun hlegal => by simpa [hd] using (decode_ok_iff_legalWord w).2 hlegal
    exact ⟨_, step_of_decode_error hd s rest, (if_pos hillegal).symm⟩
  | ok i =>
    obtain ⟨t, ht⟩ := exec_completes i { s with pending := rest }
    exact ⟨t, (step_of_decode_ok hd s rest).trans ht, (exec_err ht).trans (errorDue_of_decode hd _).symm⟩

/-! ## Runs (R160, R166) -/

theorem run_succ_of_step {M : Host.Core} {s t : M.State} (h : M.step s = .next t) (k : Nat) :
    M.run (k + 1) s = M.run k t := by
  rw [Host.Core.run, h]

/-- A property under which the step reaches a next state, and which it keeps, makes every run safe. -/
theorem safeRun_of_step {P : State → Prop} (hstep : ∀ s, P s → ∃ t, step s = .next t ∧ P t) (k : Nat) {s : State}
    (hs : P s) : SafeRun k s := by
  induction k generalizing s with
  | zero => exact ⟨s, rfl⟩
  | succ k ih =>
    obtain ⟨t, ht, hPt⟩ := hstep s hs
    obtain ⟨u, hu⟩ := ih hPt
    exact ⟨u, (run_succ_of_step (M := Sys2Proof.core) ht k).trans hu⟩

theorem busAccess_done_pending {x : HostAccess} {s t : State} (h : busAccess s x = .done t) :
    t.pending = s.pending := by
  obtain rfl | ⟨v, rfl⟩ | ⟨a, v, -, hw⟩ := busAccess_done h
  · rfl
  · rfl
  · obtain ⟨-, -, -, -, -, -, -, hpending, -⟩ := writeTarget_done hw
    exact hpending

/-- A step takes the host's next access and leaves the others (R79). -/
theorem step_pending {s t : State} {x : HostAccess} {rest : List HostAccess}
    (h : step { s with pending := x :: rest } = .next t) : t.pending = rest := by
  obtain hdone | ⟨w, -, ⟨i, -, hexec⟩ | rfl⟩ := step_access_next h
  · exact busAccess_done_pending hdone
  · rw [exec_changesAtMost hexec]
  · rfl

/-- With allowed accesses left the block reaches a next state with allowed accesses left. -/
theorem step_of_allowed {s : State} (hs : ∀ x ∈ s.pending, x.allowed) :
    ∃ t, step s = .next t ∧ ∀ x ∈ t.pending, x.allowed := by
  cases hp : s.pending with
  | nil => exact ⟨s, by rw [step, nextCycle, hp], hs⟩
  | cons x rest =>
    obtain ⟨hx, hrest⟩ := List.forall_mem_cons.1 (hp ▸ hs)
    rw [State.eq_withPending hp]
    obtain ⟨t, ht⟩ := (onlyRefusedAccessesFault s x rest).1 hx
    exact ⟨t, ht, (step_pending ht).symm ▸ hrest⟩

/-- Settles O8: that the accesses left are allowed is a property the step keeps, and under it no step stops. -/
theorem allowedSequencesNeverStop : Obligations.AllowedSequencesNeverStop := by
  unfold Obligations.AllowedSequencesNeverStop
  exact fun k s hs => safeRun_of_step (fun _ => step_of_allowed) k hs

end Sys2Proof.Machine

/-! SUPPORT. Block reset: the values it leaves, and that nothing else takes a unit's VALID bit or ERRSEEN back (O11,
O12). -/

namespace Sys2Proof.Machine

/-! ## What a block reset leaves (R40, R181) -/

/-- A block reset completes from any state. -/
theorem step_reset (s : State) (rest : List HostAccess) :
    step { s with pending := .reset :: rest } = .next (blockReset { s with pending := rest }) :=
  step_of_done rfl

/-- No byte written before a block reset is read after it: each address holds the free value of that reset. -/
theorem blockReset_readByte (s : State) (a : Nat) :
    (blockReset s).readByte a = Config.unwrittenByte (s.resets + 1) a := by
  rw [State.readByte, blockReset_buf, memLookup_nil, blockReset_resets]

/-- With no error reported and neither unit configured, every bit of STATUS is 0 (R28). -/
theorem statusWord_eq_zero {s : State} (herr : s.err = .none) (hseen : s.errSeen = false)
    (hgen : s.gen.valid = false) (heng : s.eng.valid = false) : statusWord s = 0 := by
  rw [statusWord, herr, hseen, hgen, heng]
  decide

/-- Settles O11: a block reset and `State.reset` leave the values of R40, and no buffer byte written before. -/
theorem blockResetClearsTheBlock : Obligations.BlockResetClearsTheBlock := by
  unfold Obligations.BlockResetClearsTheBlock
  refine fun s rest => ⟨_, step_reset s rest, rfl, blockReset_readByte _, fun u hu => ?_⟩
  obtain rfl | rfl := hu <;>
    exact ⟨rfl, rfl, statusWord_eq_zero rfl rfl rfl rfl, rfl, rfl, rfl, rfl, rfl, rfl⟩

/-! ## What only a block reset clears (R182) -/

/-- The bits that R182 speaks of, L_VALID, E_VALID and ERRSEEN, are set in `t` wherever they are set in `s`. -/
def KeepsSetBits (s t : State) : Prop :=
  (s.gen.valid = true → t.gen.valid = true) ∧ (s.eng.valid = true → t.eng.valid = true) ∧
    (s.errSeen = true → t.errSeen = true)

theorem KeepsSetBits.of_eq {s t : State} (hgen : t.gen = s.gen) (heng : t.eng = s.eng)
    (hseen : t.errSeen = s.errSeen) : KeepsSetBits s t := by
  rw [KeepsSetBits, hgen, heng, hseen]
  exact ⟨id, id, id⟩

/-- An error report sets ERRSEEN and leaves both units (R163). -/
theorem Raised.keepsSetBits {s t : State} (h : Raised s t) : KeepsSetBits s t := by
  obtain ⟨c, -, rfl⟩ := h
  exact ⟨id, id, fun _ => rfl⟩

/-- LCFG sets L_VALID, and every other command leaves it (R101). -/
theorem Succeeds.gen_valid {i : Instr} {s t : State} (h : Succeeds i s t) (hv : s.gen.valid = true) :
    t.gen.valid = true := by
  cases i with
  | lcfg a b => obtain ⟨-, -, -, rfl⟩ := h; rfl
  | eload n => subst h; exact hv
  | etrn => obtain ⟨-, ds, -, rfl⟩ := h; simpa [etrnDone] using hv
  | _ => obtain ⟨-, rfl⟩ := h; exact hv

/-- ELOAD sets E_VALID, and every other command leaves it (R121). -/
theorem Succeeds.eng_valid {i : Instr} {s t : State} (h : Succeeds i s t) (hv : s.eng.valid = true) :
    t.eng.valid = true := by
  cases i with
  | lcfg a b => obtain ⟨-, -, -, rfl⟩ := h; exact hv
  | eload n => subst h; rfl
  | etrn =>
    obtain ⟨-, ds, -, rfl⟩ := h
    obtain ⟨-, -, -, hvalid⟩ := transformNibbles_frame s.params { s.eng with carry := false } ds
    exact hvalid.trans hv
  | _ => obtain ⟨-, rfl⟩ := h; exact hv

theorem exec_keepsSetBits {i : Instr} {s t : State} (h : exec i s = .next t) : KeepsSetBits s t := by
  obtain hraised | hsucc := exec_cases h
  · exact hraised.keepsSetBits
  · obtain ⟨-, hseen⟩ := hsucc.err_errSeen
    exact ⟨hsucc.gen_valid, hsucc.eng_valid, hseen.trans⟩

/-- A step at any access but a block reset: a completed access leaves the bits, a command keeps them,
and an illegal word raises an error. -/
theorem step_keepsSetBits {s t : State} {x : HostAccess} {rest : List HostAccess} (hx : x ≠ .reset)
    (h : step { s with pending := x :: rest } = .next t) : KeepsSetBits s t := by
  obtain hdone | ⟨w, -, ⟨i, -, hexec⟩ | rfl⟩ := step_access_next h
  · obtain ⟨hgen, heng, -, hseen⟩ := busAccess_done_units hdone hx
    exact .of_eq hgen heng hseen
  · exact exec_keepsSetBits (s := { s with pending := rest }) hexec
  · exact Raised.keepsSetBits (s := { s with pending := rest }) ⟨.illegal, by decide, rfl⟩

/-- Settles O12: LRST and ERST by their rules, every access but a block reset by the cases of its step, and a block
reset by its values. -/
theorem onlyBlockResetUnconfigures : Obligations.OnlyBlockResetUnconfigures := by
  unfold Obligations.OnlyBlockResetUnconfigures
  obtain ⟨-, hlrstNotReady, hlrst⟩ := lrstRestoresTheSeed
  obtain ⟨-, herstNotReady, herst⟩ := erstRestoresTheCombiner
  exact ⟨hlrstNotReady, herstNotReady, fun s hv => ⟨_, hlrst s hv, rfl⟩, fun s hv => ⟨_, herst s hv, rfl, rfl⟩,
    fun _ _ _ _ hx h => step_keepsSetBits hx h, fun s rest => ⟨_, step_reset s rest, rfl, rfl, rfl⟩⟩

end Sys2Proof.Machine
